-- ==== Sys2Proof/Word.lean ====
section
/-! DEFINITION. The widths of the block's values and the words its three ports carry (00_scope.md R5, R6;
30_encoding.md R50 to R53). -/

namespace Sys2Proof

/-- An 8-bit memory byte (R30). -/
abbrev Byte := BitVec 8

/-- A 64-bit value: an accumulator (`ACCW`) or an address, length, cursor (`XLEN`) (R5). -/
abbrev Word := BitVec 64

/-- A format U code, the value of the `uop` register (`UOPW`, R15, R51). -/
abbrev Code := BitVec 3

/-- The 16-bit result (`FOLDW`, R19). -/
abbrev Digest := BitVec 16

/-- A format H word, the host command port `start : data : len` (R52). -/
abbrev CommandWord := BitVec 129

/-- The ports on which an operation's word arrives; the port fixes the format and the length (R50, R58). -/
inductive Port where
  | command   -- format H, the host command port
  | uop       -- format U, the `uop` register
deriving DecidableEq, Repr

/-- A word on its port. -/
inductive PortWord where
  | h (w : CommandWord)
  | u (c : Code)
deriving DecidableEq, Repr

/-- The three read sizes that exist (R31, R53); there is no 4-byte read (R34). -/
inductive MemSize where
  | one
  | two
  | eight
deriving DecidableEq, Repr

/-- A memory read request, format M: the size and the address of the first byte (R53). -/
structure MemRequest where
  size : MemSize
  addr : Word
deriving DecidableEq, Repr

end Sys2Proof
end

