-- ==== Sys2Proof/Config.lean ====
section
/-! DEFINITION. The block's hardwired constants (00_scope.md R5, 30_encoding.md R56) and its free values. -/

namespace Sys2Proof

/-- `CHUNK`: bytes consumed by one `LANE8` (R5). -/
abbrev Config.chunkBytes : Nat := 8

/-- `HALFB`: bytes consumed by one `HALF2` (R5). -/
abbrev Config.halfBytes : Nat := 2

/-- Bytes consumed by one `ODD1` (R56). -/
abbrev Config.oddBytes : Nat := 1

/-- `LANEW`: the width of one lane (R5, R82). -/
abbrev Config.laneWidth : Nat := 32

/-- `FOLDW`: the fold's shift and the width it reduces to (R5, R56). -/
abbrev Config.foldWidth : Nat := 16

/-- The fold mask (R56). -/
abbrev Config.foldMask : Word := 0xFFFF#64

/-- The bound of R83 up to which no addition wraps, whatever the data. -/
abbrev Config.safeLength : Nat := 2 ^ 34 + 7

/-- DESIGN CHOICE (log entries 2 and 6). The free values: what a register holds where the spec gives it no
value (after the `RESET` pin, R115; `rem` after a subtraction below zero, which R14 excludes). It has no body,
so nothing can be proved of any of its values. -/
opaque Config.freeWord : Nat → Word

end Sys2Proof
end

