-- ==== Sys2Proof/Syntax.lean ====
section
/-! DEFINITION. The operations, one constructor per row of spec/opcode_table.json. -/

namespace Sys2Proof

/-- The rows of the opcode table. Only `START` has operands (30_encoding.md R51, R52). `READ` and `RESET` have no
encoding and no row (R50): they are actions of a host turn. -/
inductive Instr where
  | start (data len : Word)   -- START, format H (R66)
  | idle                      -- IDLE, code 0: no step (R68)
  | lane8                     -- LANE8, code 1 (R80)
  | combine                   -- COMBINE, code 2 (R81)
  | half2                     -- HALF2, code 3 (R85)
  | odd1                      -- ODD1, code 4 (R86)
  | fold                      -- FOLD, code 5 (R90)
  | cmpl                      -- CMPL, code 6 (R95)
  | reserved7                 -- RESERVED_7, code 7: never written by any rule (R57)
deriving DecidableEq, Repr

end Sys2Proof
end

