-- ==== Sys2Proof/WellFormed.lean ====
section
/-! DEFINITION. Which instructions are operations of the block (30_encoding.md R52, R57). -/

namespace Sys2Proof

/-- Every value of `data` and of `len` is legal (R52) and the micro-operations have no operands (R51), so the one
check is that the code is not the reserved one (R57). -/
def Instr.wellFormed : Instr → Bool
  | .start _ _ => true
  | .idle => true
  | .lane8 => true
  | .combine => true
  | .half2 => true
  | .odd1 => true
  | .fold => true
  | .cmpl => true
  | .reserved7 => false

end Sys2Proof
end

