-- ==== Sys2Proof/Decode.lean ====
section
/-! DEFINITION. Formats H, U and M (30_encoding.md): decoding words and bytes, and the encoder after it. -/

namespace Sys2Proof

/-- Why a decoder gives no instruction. -/
inductive DecodeError where
  | noCommand       -- a format H word with `start = 0`: the block does nothing (R57)
  | wrongLength     -- not as many bytes as the port carries (R50: one length per format)
  | unusedBitsSet   -- a bit above the format's width is set: not a word of the port
deriving DecidableEq, Repr

/-! ### Decoding -/

/-- The command strobe, bit 128 of a format H word (R52). -/
def startBit (w : CommandWord) : Bool :=
  w.getLsbD 128

/-- Format H (R52): bit 128 is `start`, bits 127:64 `data`, bits 63:0 `len`. -/
def decodeCommand (w : CommandWord) : Except DecodeError Instr :=
  if startBit w then .ok (.start (w.extractLsb' 64 64) (w.extractLsb' 0 64)) else .error .noCommand

/-- Format U (R51): the eight codes of the `uop` register. -/
def decodeUop (c : Code) : Instr :=
  match c.toNat with
  | 0 => .idle
  | 1 => .lane8
  | 2 => .combine
  | 3 => .half2
  | 4 => .odd1
  | 5 => .fold
  | 6 => .cmpl
  | _ => .reserved7

/-- The instruction a word stands for on its port (R50, R58). -/
def decode : PortWord → Except DecodeError Instr
  | .h w => decodeCommand w
  | .u c => .ok (decodeUop c)

/-- `le` of R8: bytes read as a little-endian unsigned integer, the first byte least significant. -/
def leNat : List Byte → Nat
  | [] => 0
  | b :: bs => b.toNat + 256 * leNat bs

/-- The little-endian bytes of a number, `n` of them, the first byte least significant. -/
def leBytes : Nat → Nat → List Byte
  | 0, _ => []
  | n + 1, w => BitVec.ofNat 8 w :: leBytes n (w / 256)

/-- DESIGN CHOICE (log entry 10). How many bytes a port's word fills when it is written out as bytes. -/
def Port.byteLength : Port → Nat
  | .command => 17
  | .uop => 1

/-- The width in bits of a port's word (R50). -/
def Port.width : Port → Nat
  | .command => 129
  | .uop => 3

/-- The word a port carries, from its number. -/
def Port.word : Port → Nat → PortWord
  | .command, n => .h (BitVec.ofNat 129 n)
  | .uop, n => .u (BitVec.ofNat 3 n)

/-- Decoding of the bytes of a port's word, total on any bytes. -/
def decodeBytes (p : Port) (bytes : List Byte) : Except DecodeError Instr :=
  if bytes.length ≠ p.byteLength then .error .wrongLength
  else if 2 ^ p.width ≤ leNat bytes then .error .unusedBitsSet
  else decode (p.word (leNat bytes))

/-- The port whose format has a table row of `nbits` bits: format U rows fill one byte, format H rows more. -/
def Port.ofTableBits (nbits : Nat) : Port :=
  if nbits ≤ 8 then .uop else .command

/-- The instruction read from a word numbered as spec/opcode_table.json numbers it. -/
def decodeTableWord (nbits w : Nat) : Option Instr :=
  let p := Port.ofTableBits nbits
  (decodeBytes p (leBytes p.byteLength w)).toOption

/-! ### Encoding -/

/-- The word of an instruction (R51, R52). -/
def encode : Instr → PortWord
  | .start data len => .h (1#1 ++ data ++ len)
  | .idle => .u 0b000#3
  | .lane8 => .u 0b001#3
  | .combine => .u 0b010#3
  | .half2 => .u 0b011#3
  | .odd1 => .u 0b100#3
  | .fold => .u 0b101#3
  | .cmpl => .u 0b110#3
  | .reserved7 => .u 0b111#3

/-- The port a word is on. -/
def PortWord.port : PortWord → Port
  | .h _ => .command
  | .u _ => .uop

/-- A port's word as a number. -/
def PortWord.toNat : PortWord → Nat
  | .h w => w.toNat
  | .u c => c.toNat

/-- The opcode table's `mask` of an instruction's row. -/
def Instr.tableMask : Instr → Nat
  | .start _ _ => 0x100000000000000000000000000000000
  | .idle => 0x7
  | .lane8 => 0x7
  | .combine => 0x7
  | .half2 => 0x7
  | .odd1 => 0x7
  | .fold => 0x7
  | .cmpl => 0x7
  | .reserved7 => 0x7

/-- The opcode table's `match` of an instruction's row. -/
def Instr.tableMatch : Instr → Nat
  | .start _ _ => 0x100000000000000000000000000000000
  | .idle => 0x0
  | .lane8 => 0x1
  | .combine => 0x2
  | .half2 => 0x3
  | .odd1 => 0x4
  | .fold => 0x5
  | .cmpl => 0x6
  | .reserved7 => 0x7

/-! ### Format M, the memory read request -/

/-- The byte count of a read size (R53). -/
def MemSize.bytes : MemSize → Nat
  | .one => 1
  | .two => 2
  | .eight => 8

/-- The 2-bit code of a read size: `log2` of the byte count (R53). -/
def MemSize.code : MemSize → BitVec 2
  | .one => 0b00#2
  | .two => 0b01#2
  | .eight => 0b11#2

/-- The read size of a code; `10` is never issued (R53, R57). -/
def MemSize.ofCode (c : BitVec 2) : Option MemSize :=
  match c.toNat with
  | 0 => some .one
  | 1 => some .two
  | 3 => some .eight
  | _ => none

/-- The format M word: bits 65:64 the size code, bits 63:0 the address (R53). -/
def MemRequest.encode (r : MemRequest) : BitVec 66 :=
  r.size.code ++ r.addr

/-- The request a format M word stands for. -/
def MemRequest.decode (w : BitVec 66) : Option MemRequest :=
  (MemSize.ofCode (w.extractLsb' 64 2)).map fun size => { size := size, addr := w.extractLsb' 0 64 }

end Sys2Proof
end

