-- ==== Sys2Proof/Machine/State.lean ====
section
/-! DEFINITION. The state of one block with its memory and its host (10_state.md R10, 20_memory.md R30,
40_command_and_sequencer.md R68), the reasons a step can stop, and the state after reset. -/

namespace Sys2Proof.Machine

/-- `Mem` of R30 as (address, byte) pairs, addresses strictly rising. An unlisted address is not readable. -/
abbrev Memory := List Host.Cell

/-- What the host drives on the block's input pins in one turn (R20). -/
structure HostPins where
  /-- The reset pin (R115). -/
  reset : Bool
  /-- The host samples `valid` and `result`: the host read `READ` (R69). -/
  read : Bool
  /-- The command port: a format H word, `start : data : len` (R52). -/
  command : CommandWord
deriving DecidableEq, Repr

/-- One turn of the step relation (R68): which of the two agents acts. -/
inductive Turn where
  | sequencer
  | host (pins : HostPins)
deriving DecidableEq, Repr

/-- The seven registers of R10, the memory, and the model's own three fields. -/
structure State where
  /-- The low-lane, tail and fold accumulator (R11). -/
  sum : Word
  /-- The high-lane accumulator (R12). -/
  sum1 : Word
  /-- The cursor: the address of the next byte to read (R13). -/
  cur : Word
  /-- The remaining length: the number of bytes not yet read (R14). -/
  rem : Word
  /-- The code of the next micro-operation (R15). -/
  uop : Code
  /-- The result register (R19). -/
  result : Digest
  /-- `result` is the digest of the last accepted `START` (R17). -/
  valid : Bool
  /-- The memory the read port reaches (R30). -/
  mem : Memory
  /-- The model's own (log entry 4): the turns to come; the sequencer moves when there is none. -/
  turns : List Turn
  /-- The model's own (log entry 5): the values the host's reads have returned, oldest first. -/
  taken : List Digest
  /-- The model's own (log entry 2): how many free values have been used. -/
  draws : Nat
deriving DecidableEq, Repr

/-- The model-faults of 60_exceptions.md R101. The hardware signals nothing (R100). -/
inductive Fault where
  /-- Raised by `LANE8`, `HALF2` and `ODD1` when a byte they read is not readable; `a` is the lowest such
  address (R41, R103 (d)). Safe: the document leaves the hardware's behaviour undefined (U1). -/
  | unreadableByte (a : Word)
deriving DecidableEq, Repr

/-- The refusals of R101, and the one for an instruction without a meaning. -/
inductive Refusal where
  /-- Raised by an arm of `exec` for an instruction that has no meaning yet. Safe: the model stops. -/
  | notModelled (mnemonic : String)
  /-- Raised by `RESERVED_7`: a state with `uop = 7` is asked to step (R57, R68). Safe: no rule produces it. -/
  | reservedUop
  /-- Raised by a host read while `valid = 0`: `result` holds no value (R69, R118). Safe: the model stops. -/
  | resultNotValid
deriving DecidableEq, Repr

/-- The state right after reset (10_state.md R23, 70_reset_and_hazards.md R115): `uop = IDLE`, `valid = 0`.
DESIGN CHOICE (log entry 1): the spec gives `sum`, `sum1`, `cur`, `rem` and `result` no value; here they are 0,
and no statement may rest on it. DESIGN CHOICE (log entry 3): no byte of memory is readable until it is placed. -/
def State.reset : State where
  sum := 0#64
  sum1 := 0#64
  cur := 0#64
  rem := 0#64
  uop := 0b000#3
  result := 0#16
  valid := false
  mem := []
  turns := []
  taken := []
  draws := 0

end Sys2Proof.Machine
end

