-- ==== Sys2Proof/Machine/Ops.lean ====
section
/-! DEFINITION. The named operations over memory and registers: `MemRead` (20_memory.md R31), the read port
(30_encoding.md R53), the register updates the rules of files 40 to 44 and 70 are made of. -/

namespace Sys2Proof.Machine

/-! ### Memory -/

/-- The entry listed for an address, if any. -/
def Memory.find : Memory → Nat → Option Byte
  | [], _ => none
  | (k, b) :: rest, a => if k = a then some b else Memory.find rest a

/-- `Mem[a]` (R7, R30): the byte at an address, none where it is not readable. -/
def Memory.readAt (m : Memory) (a : Word) : Option Byte :=
  Memory.find m a.toNat

/-- Canonical form from a lowest allowed address on: addresses strictly rising, all of the 2^64-byte space. -/
def Memory.wfFrom : Nat → Memory → Bool
  | _, [] => true
  | lo, (k, _) :: rest => decide (lo ≤ k) && decide (k < 2 ^ 64) && Memory.wfFrom (k + 1) rest

/-- The canonical form of memory. No byte equals what an unlisted address reads as, since that is no value. -/
def Memory.wf (m : Memory) : Bool :=
  Memory.wfFrom 0 m

/-- Insert or replace the entry of an address. -/
def Memory.insert : Memory → Nat → Byte → Memory
  | [], a, b => [(a, b)]
  | (k, c) :: rest, a, b =>
    if a < k then (a, b) :: (k, c) :: rest
    else if a = k then (a, b) :: rest
    else (k, c) :: Memory.insert rest a b

/-- Remove the entry of an address. -/
def Memory.remove : Memory → Nat → Memory
  | [], _ => []
  | (k, c) :: rest, a => if k = a then Memory.remove rest a else (k, c) :: Memory.remove rest a

/-- The host's store of a byte between calls (R120, log entry 9). Not a step of the block, which never writes (R35). -/
def hostStore (a : Word) (b : Byte) (s : State) : State :=
  { s with mem := Memory.insert s.mem a.toNat b }

/-- The host's release of a byte between calls: the address is no longer readable (R120, log entry 9). -/
def hostRelease (a : Word) (s : State) : State :=
  { s with mem := Memory.remove s.mem a.toNat }

/-- The `n` addresses of a read at `a`, rising modulo 2^64 (R31). -/
def addresses (a : Word) : Nat → List Word
  | 0 => []
  | n + 1 => a :: addresses (a + 1#64) n

/-- The bytes at a list of addresses, or the lowest of them that is not readable (R41, R103 (d)).
DEDUCED (log entry 7): "lowest" is numerically lowest, also when the access wraps. -/
def Memory.collect (m : Memory) : List Word → Except Word (List Byte)
  | [] => .ok []
  | a :: rest =>
    match Memory.readAt m a, Memory.collect m rest with
    | some b, .ok bs => .ok (b :: bs)
    | some _, .error c => .error c
    | none, .ok _ => .error a
    | none, .error c => .error (if a.toNat ≤ c.toNat then a else c)

/-- The memory port's answer to a request (R53): `MemRead` of R31 in the low `8n` bits of `mem_rdata`. The block
ignores the bits above, and the operand forms cut them off. -/
def respond (m : Memory) (r : MemRequest) : Except Word Word :=
  match Memory.collect m (addresses r.addr r.size.bytes) with
  | .ok bs => .ok (BitVec.ofNat 64 (leNat bs))
  | .error a => .error a

/-- The request a read of a size issues: its address is always `cur` (R53). -/
def requestOf (size : MemSize) (s : State) : MemRequest :=
  { size := size, addr := s.cur }

/-- The one shared form of the three reading micro-operations: read at `cur`, then go on with `mem_rdata`, or stop
with the model-fault, no register written (R41, R80, R85, R86). -/
def withRead (size : MemSize) (s : State) (k : Word → State) : Host.Outcome State Fault Refusal :=
  match respond s.mem (requestOf size s) with
  | .ok rdata => .next (k rdata)
  | .error a => .fault (.unreadableByte a)

/-! ### Registers -/

/-- `sum <- sum + v`, modulo 2^64 (R74). -/
def addToSum (v : Word) (s : State) : State :=
  { s with sum := s.sum + v }

/-- `sum1 <- sum1 + v`, modulo 2^64 (R74). -/
def addToSum1 (v : Word) (s : State) : State :=
  { s with sum1 := s.sum1 + v }

/-- `sum <- v`. -/
def setSum (v : Word) (s : State) : State :=
  { s with sum := v }

/-- `uop <- c`: name the next micro-operation (R7, R15). -/
def goTo (c : Code) (s : State) : State :=
  { s with uop := c }

/-- `rem - n`. DESIGN CHOICE (log entry 6): below zero, which the rules exclude (R14, R74) and where they state no
result, it is a free value. -/
def remAfter (n : Nat) (s : State) : Word :=
  if n ≤ s.rem.toNat then s.rem - BitVec.ofNat 64 n else Config.freeWord s.draws

/-- How many free values have been used after `remAfter`. -/
def drawsAfter (n : Nat) (s : State) : Nat :=
  if n ≤ s.rem.toNat then s.draws else s.draws + 1

/-- `cur <- cur + n` modulo 2^64, `rem <- rem - n` (R13, R14). -/
def advance (n : Nat) (s : State) : State :=
  { s with cur := s.cur + BitVec.ofNat 64 n, rem := remAfter n s, draws := drawsAfter n s }

/-- The register writes of an accepted `START`, except `uop` (R66). `result` is not written (log entry 8). -/
def beginCall (data len : Word) (s : State) : State :=
  { s with sum := 0#64, sum1 := 0#64, cur := data, rem := len, valid := false }

/-- The register writes of `CMPL`, except `uop` (R95). -/
def deliver (r : Digest) (s : State) : State :=
  { s with result := r, valid := true }

/-- The effect of the reset pin (R115, R116): `uop <- IDLE`, `valid <- 0`; memory and the host are not touched.
DESIGN CHOICE (log entry 2): the five registers the spec leaves unspecified take free values. -/
def resetBlock (s : State) : State :=
  { s with
    uop := 0b000#3
    valid := false
    sum := Config.freeWord s.draws
    sum1 := Config.freeWord (s.draws + 1)
    cur := Config.freeWord (s.draws + 2)
    rem := Config.freeWord (s.draws + 3)
    result := (Config.freeWord (s.draws + 4)).setWidth 16
    draws := s.draws + 5 }

/-- The host keeps a value its read returned. -/
def keepTaken (r : Digest) (s : State) : State :=
  { s with taken := s.taken ++ [r] }

/-- A turn is used up; these remain. -/
def setTurns (rest : List Turn) (s : State) : State :=
  { s with turns := rest }

end Sys2Proof.Machine
end

