-- ==== Sys2Proof/Machine/Operands.lean ====
section
/-! DEFINITION. Operand assembly: what enters each adder, zero-extended to 64 bits (30_encoding.md R55,
41_lane_adder.md R82), the fold step and the complement. -/

namespace Sys2Proof.Machine

/-- Lane 0 of a chunk word, `zext_64(d[31:0])`: the four bytes at the lower addresses. -/
def laneLow (d : Word) : Word :=
  (d.extractLsb' 0 Config.laneWidth).setWidth 64

/-- Lane 1 of a chunk word, `zext_64(d[63:32])`. -/
def laneHigh (d : Word) : Word :=
  (d.extractLsb' Config.laneWidth Config.laneWidth).setWidth 64

/-- The half-word operand, `zext_64(h)`: bits 15:0 of `mem_rdata`. -/
def halfOperand (d : Word) : Word :=
  (d.extractLsb' 0 16).setWidth 64

/-- The odd-byte operand, `zext_64(b)`: bits 7:0 of `mem_rdata`, not shifted (R86). -/
def oddOperand (d : Word) : Word :=
  (d.extractLsb' 0 8).setWidth 64

/-- One end-around-carry fold of the accumulator: `(sum & 0xFFFF) + (sum >> 16)` (R90). -/
def foldWord (v : Word) : Word :=
  (v &&& Config.foldMask) + (v >>> Config.foldWidth)

/-- The output stage: `(~sum)[15:0]` (R95). -/
def complementLow (v : Word) : Digest :=
  (~~~v).extractLsb' 0 16

/-- A wider view of the result: the extra high bits are zero (R54). -/
def widenResult (width : Nat) (r : Digest) : BitVec width :=
  r.setWidth width

end Sys2Proof.Machine
end

