-- ==== Sys2Proof/Machine/Flags.lean ====
section
/-! DEFINITION. The flags and output ports (10_state.md R17 to R20; 30_encoding.md R53). `valid` is the only stored
flag; there are no arithmetic condition codes (R17). -/

namespace Sys2Proof.Machine

/-- `ready = 1` exactly when `uop = IDLE`; not stored (R18). -/
def ready (s : State) : Bool :=
  s.uop == 0b000#3

/-- `busy` is a name for `ready = 0` (R18). -/
def busy (s : State) : Bool :=
  !ready s

/-- The port `result`: no value while `valid = 0` (R19, R69). -/
def resultPort (s : State) : Option Digest :=
  if s.valid then some s.result else none

/-- The memory request a step of the sequencer issues from a state, if any (R34, R53). -/
def memRequest (s : State) : Option MemRequest :=
  match s.uop.toNat with
  | 1 => some (requestOf .eight s)
  | 3 => some (requestOf .two s)
  | 4 => some (requestOf .one s)
  | _ => none

end Sys2Proof.Machine
end

