-- ==== Sys2Proof/Machine/Sequencer.lean ====
section
/-! DEFINITION. The sequencing functions that take the place of branches (40_command_and_sequencer.md R67), and the
two codes of `uop` that are no micro-operation (R57, R68). -/

namespace Sys2Proof.Machine

/-- `seq_lane(r)`: `LANE8` if `r >= 8`, else `COMBINE` (R67). -/
def seqLane (r : Word) : Code :=
  if 8 ≤ r.toNat then 0b001#3 else 0b010#3

/-- `seq_fold(s)`: `FOLD` if `s[63:16] != 0`, else `CMPL` (R67). -/
def seqFold (v : Word) : Code :=
  if v.extractLsb' 16 48 ≠ 0#48 then 0b101#3 else 0b110#3

/-- `seq_tail(r, s)`: `HALF2` if `r >= 2`, `ODD1` if `r = 1`, `seq_fold(s)` if `r = 0` (R67). -/
def seqTail (r v : Word) : Code :=
  if 2 ≤ r.toNat then 0b011#3 else if r.toNat = 1 then 0b100#3 else seqFold v

/-- `IDLE` (R68): the sequencer is held and no register changes; an accepted `START` lifts the hold. -/
def execIdle (s : State) : Host.Outcome State Fault Refusal :=
  .next s

/-- Code 7 (R57, R68, R101): no rule writes it and the model refuses to step it. -/
def execReserved7 (_ : State) : Host.Outcome State Fault Refusal :=
  .refused .reservedUop

end Sys2Proof.Machine
end

