-- ==== Sys2Proof/Machine/Folder.lean ====
section
/-! DEFINITION. The 16-bit end-around-carry folder: `FOLD` (43_fold.md R90). -/

namespace Sys2Proof.Machine

/-- `FOLD` (R90): one fold of `sum`; again while the new `sum` is 2^16 or more. -/
def execFold (s : State) : Host.Outcome State Fault Refusal :=
  .next (goTo (seqFold (foldWord s.sum)) (setSum (foldWord s.sum) s))

end Sys2Proof.Machine
end

