-- ==== Sys2Proof/Machine/HostCommand.lean ====
section
/-! DEFINITION. The host command `START` (40_command_and_sequencer.md R66, R75), the host read `READ` (R69). -/

namespace Sys2Proof.Machine

/-- `START data, len` (R66). Presented while busy it is `StartNotAccepted` of R101: a hold, the state does not change
and nothing is kept (R119). -/
def execStart (data len : Word) (s : State) : Host.Outcome State Fault Refusal :=
  if ready s then .next (goTo (seqLane len) (beginCall data len s)) else .next s

/-- `READ` (R69): the host takes the value of the port `result`; no state of the block is written. While `valid = 0`
the read is refused. -/
def hostRead (s : State) : Host.Outcome State Fault Refusal :=
  match resultPort s with
  | some r => .next (keepTaken r s)
  | none => .refused .resultNotValid

end Sys2Proof.Machine
end

