-- ==== Sys2Proof/Machine/LaneAdder.lean ====
section
/-! DEFINITION. The 32-bit parallel-lane adder: `LANE8` and `COMBINE` (41_lane_adder.md R80 to R82). -/

namespace Sys2Proof.Machine

/-- The register writes of `LANE8` for a chunk word `d` (R80). -/
def laneEffect (d : Word) (s : State) : State :=
  goTo (seqLane (remAfter Config.chunkBytes s))
    (advance Config.chunkBytes (addToSum1 (laneHigh d) (addToSum (laneLow d) s)))

/-- `LANE8` (R80): one 8-byte read, both lanes added in parallel. -/
def execLane8 (s : State) : Host.Outcome State Fault Refusal :=
  withRead .eight s fun d => laneEffect d s

/-- `COMBINE` (R81): `sum <- sum + sum1`, then the tail, the folder or the output stage. -/
def execCombine (s : State) : Host.Outcome State Fault Refusal :=
  .next (goTo (seqTail s.rem (s.sum + s.sum1)) (addToSum s.sum1 s))

end Sys2Proof.Machine
end

