-- ==== Sys2Proof/Machine/OutputStage.lean ====
section
/-! DEFINITION. The bitwise-complement output stage: `CMPL` (44_complement_output.md R95). -/

namespace Sys2Proof.Machine

/-- `CMPL` (R95): `result <- (~sum)[15:0]`, `valid <- 1`, `uop <- IDLE`. -/
def execCmpl (s : State) : Host.Outcome State Fault Refusal :=
  .next (goTo 0b000#3 (deliver (complementLow s.sum) s))

end Sys2Proof.Machine
end

