-- ==== Sys2Proof/Machine/Tail.lean ====
section
/-! DEFINITION. The tail adders: `HALF2` and `ODD1` (42_tail.md R85, R86). -/

namespace Sys2Proof.Machine

/-- The register writes of `HALF2` for the answer `d` of the memory port (R85). -/
def halfEffect (d : Word) (s : State) : State :=
  goTo (seqTail (remAfter Config.halfBytes s) (s.sum + halfOperand d))
    (advance Config.halfBytes (addToSum (halfOperand d) s))

/-- The register writes of `ODD1` for the answer `d` of the memory port (R86). -/
def oddEffect (d : Word) (s : State) : State :=
  goTo (seqFold (s.sum + oddOperand d)) (advance Config.oddBytes (addToSum (oddOperand d) s))

/-- `HALF2` (R85): one 2-byte read, added to `sum`. -/
def execHalf2 (s : State) : Host.Outcome State Fault Refusal :=
  withRead .two s fun d => halfEffect d s

/-- `ODD1` (R86): one 1-byte read, added to `sum` unshifted. -/
def execOdd1 (s : State) : Host.Outcome State Fault Refusal :=
  withRead .one s fun d => oddEffect d s

end Sys2Proof.Machine
end

