-- ==== Sys2Proof/Machine/Dispatch.lean ====
section
/-! DEFINITION. One arm per row of the opcode table. -/

namespace Sys2Proof.Machine

def exec (i : Instr) (s : State) : Host.Outcome State Fault Refusal :=
  match i with
  | .start data len => Sys2Proof.Machine.execStart data len s
  | .idle => Sys2Proof.Machine.execIdle s
  | .lane8 => Sys2Proof.Machine.execLane8 s
  | .combine => Sys2Proof.Machine.execCombine s
  | .half2 => Sys2Proof.Machine.execHalf2 s
  | .odd1 => Sys2Proof.Machine.execOdd1 s
  | .fold => Sys2Proof.Machine.execFold s
  | .cmpl => Sys2Proof.Machine.execCmpl s
  | .reserved7 => Sys2Proof.Machine.execReserved7 s

end Sys2Proof.Machine
end

