-- ==== Sys2Proof/Machine/Turns.lean ====
section
/-! DEFINITION. The step relation's two agents (40_command_and_sequencer.md R68) and the order of what is presented
together (60_exceptions.md R103). -/

namespace Sys2Proof.Machine

/-- Run what a port's word decodes to; a format H word that is no command does nothing (R57). -/
def runWord (w : PortWord) (s : State) : Host.Outcome State Fault Refusal :=
  match decode w with
  | .ok i => exec i s
  | .error _ => .next s

/-- The sequencer's turn: the operation whose code is `uop` (R15, R68). -/
def sequencerTurn (s : State) : Host.Outcome State Fault Refusal :=
  runWord (.u s.uop) s

/-- The host's turn (R103): reset wins over everything; then the read, then the command. -/
def hostTurn (pins : HostPins) (s : State) : Host.Outcome State Fault Refusal :=
  if pins.reset then .next (resetBlock s)
  else if pins.read then
    match hostRead s with
    | .next t => runWord (.h pins.command) t
    | .fault f => .fault f
    | .refused r => .refused r
  else runWord (.h pins.command) s

/-- One turn: the first of `turns` is used up; with none left the sequencer moves. -/
def takeTurn (s : State) : Host.Outcome State Fault Refusal :=
  match s.turns with
  | [] => sequencerTurn s
  | .sequencer :: rest => sequencerTurn (setTurns rest s)
  | .host pins :: rest => hostTurn pins (setTurns rest s)

/-- The pins of a turn in which the host only presents a command word. -/
def commandPins (w : CommandWord) : HostPins :=
  { reset := false, read := false, command := w }

/-- Make the sequencer's turn the next one. -/
def sequencerFirst (ts : List Turn) : List Turn :=
  match ts with
  | [] => []
  | _ :: _ => .sequencer :: ts

/-- Place a port's word where the next step takes it from: a format U code in `uop`, with the sequencer's turn next;
a format H word on the command port of a host turn that comes next (log entry 11). -/
def placeWord (w : PortWord) (s : State) : State :=
  match w with
  | .u c => { s with uop := c, turns := sequencerFirst s.turns }
  | .h w => { s with turns := .host (commandPins w) :: s.turns }

end Sys2Proof.Machine
end

