-- ==== Sys2Proof/Machine/Step.lean ====
section
/-! DEFINITION. One step of the machine, and how a word is placed for the next step. -/

namespace Sys2Proof.Machine

/-- One atomic step (R68, R7). -/
def step (s : State) : Host.Outcome State Fault Refusal :=
  takeTurn s

/-- The state with a table word placed so that the next step runs it (log entry 11). -/
def State.withFetchWord (s : State) (nbits w : Nat) : State :=
  placeWord ((Port.ofTableBits nbits).word w) s

end Sys2Proof.Machine
end

