-- ==== Sys2Proof/Machine/DigestFunction.lean ====
section
/-! DEFINITION. The contract of a whole call as a function (40_command_and_sequencer.md R65) with the helpers of
00_scope.md R8. Bytes are a list in rising address order. -/

namespace Sys2Proof.Machine

/-- `W16(b)`: the integer sum of the 16-bit little-endian words, an odd last byte zero-padded (R8). -/
def w16 : List Byte → Nat
  | [] => 0
  | [b] => b.toNat
  | a :: b :: rest => leNat [a, b] + w16 rest

/-- `T(b)`: what `sum` holds before folding when no addition has wrapped (R8): both lanes of every chunk, then the
tail as in `W16`. -/
def laneTotal : List Byte → Nat
  | a0 :: a1 :: a2 :: a3 :: a4 :: a5 :: a6 :: a7 :: rest =>
    leNat [a0, a1, a2, a3] + leNat [a4, a5, a6, a7] + laneTotal rest
  | tail => w16 tail

/-- The integer sum of the low lanes of the whole chunks of `b` (R24 item 3, R80). -/
def lowLanes : List Byte → Nat
  | a0 :: a1 :: a2 :: a3 :: _ :: _ :: _ :: _ :: rest => leNat [a0, a1, a2, a3] + lowLanes rest
  | _ => 0

/-- The integer sum of the high lanes of the whole chunks of `b` (R24 item 3, R80). -/
def highLanes : List Byte → Nat
  | _ :: _ :: _ :: _ :: a4 :: a5 :: a6 :: a7 :: rest => leNat [a4, a5, a6, a7] + highLanes rest
  | _ => 0

/-- `fold1(x)`: one end-around-carry fold step (R8). -/
def fold1 (x : Nat) : Nat :=
  x % 2 ^ 16 + x / 2 ^ 16

/-- `fold1` applied until the value is below 2^16, at most `fuel` times. -/
def foldFuel : Nat → Nat → Nat
  | 0, x => x
  | fuel + 1, x => if x < 2 ^ 16 then x else foldFuel fuel (fold1 x)

/-- `fold(x)` (R8). Each application lowers a value of 2^16 or more, so `x` of them always suffice. -/
def fold (x : Nat) : Nat :=
  foldFuel x x

/-- How many applications of `fold1` that takes, counted with fuel. -/
def foldCountFuel : Nat → Nat → Nat
  | 0, _ => 0
  | fuel + 1, x => if x < 2 ^ 16 then 0 else 1 + foldCountFuel fuel (fold1 x)

/-- The number of folds of a value: the least `n` with `fold1` applied `n` times below 2^16 (R91). -/
def foldCount (x : Nat) : Nat :=
  foldCountFuel x x

/-- `(~S) & 0xFFFF = 0xFFFF - S` (R65) for a folded sum. -/
def complementOf (folded : Nat) : Digest :=
  BitVec.ofNat 16 (0xFFFF - folded)

/-- The digest of a byte sequence (R65). -/
def digestOf (b : List Byte) : Digest :=
  complementOf (fold (w16 b))

/-- The bytes of the region `{data .. data+len-1}`, where all are readable (R30, R65). -/
def Memory.region (m : Memory) (data : Word) (len : Nat) : Option (List Byte) :=
  (Memory.collect m (addresses data len)).toOption

/-- `digest(Mem, data, len)` (R65). -/
def digest (m : Memory) (data : Word) (len : Nat) : Option Digest :=
  (Memory.region m data len).map digestOf

/-- `steps(len, f)`: the sequencer steps of a call with `f` folds (R70). -/
def stepsOfCall (len f : Nat) : Nat :=
  len / 8 + 1 + len % 8 / 2 + len % 2 + f + 1

/-- The requests of a call in order: `floor(len/8)` 8-byte reads, the 2-byte reads of the tail, the odd byte (R36). -/
def requestsOfCall (data : Word) (len : Nat) : List MemRequest :=
  (List.range (len / 8)).map (fun c => ⟨.eight, data + BitVec.ofNat 64 (8 * c)⟩)
    ++ (List.range (len % 8 / 2)).map (fun j => ⟨.two, data + BitVec.ofNat 64 (8 * (len / 8) + 2 * j)⟩)
    ++ (if len % 2 = 1 then [⟨.one, data + BitVec.ofNat 64 (len - 1)⟩] else [])

/-- The sequencer's operations of a call in order, with `f` folds (R60, R87). -/
def operationsOfCall (len f : Nat) : List Instr :=
  List.replicate (len / 8) .lane8 ++ [.combine] ++ List.replicate (len % 8 / 2) .half2
    ++ (if len % 2 = 1 then [.odd1] else []) ++ List.replicate f .fold ++ [.cmpl]

end Sys2Proof.Machine
end

