-- ==== Sys2Proof/Safety.lean ====
section
/-! DEFINITION. What claims about runs are said in: the invariant of 10_state.md R24, the end of a call (R124), the
requests a run issues. -/

namespace Sys2Proof.Machine

/-- The facts of R24 that hold at every step boundary, whatever the agents do, with the canonical form of memory. -/
structure CallInv (s : State) : Prop where
  memory : s.mem.wf = true
  notReserved : s.uop ≠ 0b111#3
  validIdle : s.valid = true → s.uop = 0b000#3
  lane : s.uop = 0b001#3 → 8 ≤ s.rem.toNat
  combine : s.uop = 0b010#3 → s.rem.toNat < 8
  half : s.uop = 0b011#3 → 2 ≤ s.rem.toNat ∧ s.rem.toNat ≤ 7
  odd : s.uop = 0b100#3 → s.rem.toNat = 1
  foldDone : s.uop = 0b101#3 → s.rem.toNat = 0 ∧ 2 ^ 16 ≤ s.sum.toNat
  complement : s.uop = 0b110#3 → s.rem.toNat = 0 ∧ s.sum.toNat < 2 ^ 16

/-- Both accumulators hold the lane sums of the chunks of `b`, modulo 2^64: the integer sums if no addition wrapped
(R24 item 3). -/
def HoldsLaneSums (b : List Byte) (s : State) : Prop :=
  s.sum.toNat = lowLanes b % 2 ^ 64 ∧ s.sum1.toNat = highLanes b % 2 ^ 64

/-- R24 item by item, for the call of an accepted `START data, len` in progress; `b` are the bytes it has read so far
(R36, R37). -/
structure CallFacts (data len : Word) (b : List Byte) (s : State) : Prop where
  inProgress : s.uop ≠ 0b000#3 ∧ s.uop ≠ 0b111#3 ∧ s.valid = false
  remaining : s.rem.toNat ≤ len.toNat
  cursor : s.cur.toNat = (data.toNat + (len.toNat - s.rem.toNat)) % 2 ^ 64
  bytesRead : Memory.region s.mem data (len.toNat - s.rem.toNat) = some b
  lane : s.uop = 0b001#3 → 8 ≤ s.rem.toNat ∧ s.rem.toNat % 8 = len.toNat % 8 ∧ HoldsLaneSums b s
  combine : s.uop = 0b010#3 → s.rem.toNat = len.toNat % 8 ∧ HoldsLaneSums b s
  half : s.uop = 0b011#3 → 2 ≤ s.rem.toNat ∧ s.rem.toNat ≤ 7
  odd : s.uop = 0b100#3 → s.rem.toNat = 1
  foldDone : s.uop = 0b101#3 → s.rem.toNat = 0 ∧ 2 ^ 16 ≤ s.sum.toNat
  complement : s.uop = 0b110#3 → s.rem.toNat = 0 ∧ s.sum.toNat < 2 ^ 16

/-- A call has ended: `uop = IDLE` and `valid = 1` (R124); a state with a model-fault recorded does not exist here,
since a fault stops the machine. -/
def CallEnded (s : State) : Prop :=
  s.uop = 0b000#3 ∧ s.valid = true

/-- All bytes of a region are readable (R30, R41). -/
def Readable (m : Memory) (data : Word) (len : Nat) : Prop :=
  ∀ k, k < len → ∃ b, Memory.readAt m (data + BitVec.ofNat 64 k) = some b

/-- The lowest unreadable address of an access of `n` bytes at `a` (R41, R103 (d)). -/
def LowestUnreadable (m : Memory) (a : Word) (n : Nat) (c : Word) : Prop :=
  (∃ k, k < n ∧ c = a + BitVec.ofNat 64 k) ∧ Memory.readAt m c = none ∧
    ∀ k, k < n → Memory.readAt m (a + BitVec.ofNat 64 k) = none → c.toNat ≤ (a + BitVec.ofNat 64 k).toNat

/-- The requests the block issues in the next `n` steps, in order, up to a fault or a refusal (R36, R37). The request
of a step is the one its state names, issued only where the step is the sequencer's. -/
def requestsInRun : Nat → State → List MemRequest
  | 0, _ => []
  | n + 1, s =>
    let now := match s.turns with
      | [] => (memRequest s).toList
      | .sequencer :: _ => (memRequest s).toList
      | .host _ :: _ => []
    match step s with
    | .next t => now ++ requestsInRun n t
    | .fault _ => now
    | .refused _ => now

/-- The operations the sequencer performs in the next `n` steps, in order, up to a fault or a refusal (R59). -/
def operationsInRun : Nat → State → List Instr
  | 0, _ => []
  | n + 1, s =>
    let now := match s.turns with
      | [] => [decodeUop s.uop]
      | .sequencer :: _ => [decodeUop s.uop]
      | .host _ :: _ => []
    match step s with
    | .next t => now ++ operationsInRun n t
    | .fault _ => now
    | .refused _ => now

/-- The host's turn that presents `START data, len` and nothing else. -/
def startTurn (data len : Word) : Turn :=
  .host (commandPins (1#1 ++ data ++ len))

/-- The registers an instruction leaves as they were: all but those R10 lists as written by it, and `draws` where a free
value may have been used. -/
def KeptBy (i : Instr) (s t : State) : Prop :=
  match i with
  | .start _ _ => t.result = s.result ∧ t.draws = s.draws
  | .idle => t = s
  | .lane8 => t.result = s.result ∧ t.valid = s.valid
  | .combine =>
    t.sum1 = s.sum1 ∧ t.cur = s.cur ∧ t.rem = s.rem ∧ t.result = s.result ∧ t.valid = s.valid ∧ t.draws = s.draws
  | .half2 => t.sum1 = s.sum1 ∧ t.result = s.result ∧ t.valid = s.valid
  | .odd1 => t.sum1 = s.sum1 ∧ t.result = s.result ∧ t.valid = s.valid
  | .fold =>
    t.sum1 = s.sum1 ∧ t.cur = s.cur ∧ t.rem = s.rem ∧ t.result = s.result ∧ t.valid = s.valid ∧ t.draws = s.draws
  | .cmpl => t.sum = s.sum ∧ t.sum1 = s.sum1 ∧ t.cur = s.cur ∧ t.rem = s.rem ∧ t.draws = s.draws
  | .reserved7 => False

/-- The codes R68's table lets an operation write: its possible successors. -/
def SuccessorOf (i : Instr) (s t : State) : Prop :=
  match i with
  | .start _ _ => s.uop = 0b000#3 → t.uop = 1#3 ∨ t.uop = 2#3
  | .idle => t.uop = s.uop
  | .lane8 => t.uop = 1#3 ∨ t.uop = 2#3
  | .combine => t.uop = 3#3 ∨ t.uop = 4#3 ∨ t.uop = 5#3 ∨ t.uop = 6#3
  | .half2 => t.uop = 3#3 ∨ t.uop = 4#3 ∨ t.uop = 5#3 ∨ t.uop = 6#3
  | .odd1 => t.uop = 5#3 ∨ t.uop = 6#3
  | .fold => t.uop = 5#3 ∨ t.uop = 6#3
  | .cmpl => t.uop = 0b000#3
  | .reserved7 => False

/-- The next turn is the sequencer's. -/
def SequencerNext (s : State) : Prop :=
  s.turns.head? = none ∨ s.turns.head? = some .sequencer

/-- The next turn is the host's, with these pins, and these turns after it. -/
def HostNext (s : State) (pins : HostPins) (rest : List Turn) : Prop :=
  s.turns = .host pins :: rest

/-- A turn that neither resets the block nor reads the result: what a host that waits for `valid` may do during a call
(R118, R119). -/
def Undisturbing : Turn → Prop
  | .sequencer => True
  | .host pins => pins.reset = false ∧ pins.read = false

/-- How many of the turns are the sequencer's. -/
def sequencerTurns (ts : List Turn) : Nat :=
  ts.countP fun t => t == .sequencer

end Sys2Proof.Machine
end

