-- ==== Sys2Proof/Certificates/Slice0/Obligations.lean ====
section
/-! DEFINITION. The statements about the block, each from the rules of spec/ its docstring cites. A statement about a
state of this machine holds for every value of `Config.freeWord`. -/

open Sys2Proof Sys2Proof.Machine

/-! ### Encodings -/

/-- 30_encoding.md R51: the eight codes of format U, in both directions, and the load address is always `cur`. -/
def Obligations.FormatUCodes : Prop :=
  decode (.u 0b000#3) = .ok .idle ∧ decode (.u 0b001#3) = .ok .lane8 ∧ decode (.u 0b010#3) = .ok .combine ∧
  decode (.u 0b011#3) = .ok .half2 ∧ decode (.u 0b100#3) = .ok .odd1 ∧ decode (.u 0b101#3) = .ok .fold ∧
  decode (.u 0b110#3) = .ok .cmpl ∧ decode (.u 0b111#3) = .ok .reserved7 ∧
  (∀ (c : Code) (i : Instr), decode (.u c) = .ok i → encode i = .u c) ∧
  (∀ (s : State) (r : MemRequest), memRequest s = some r → r.addr = s.cur)

/-- 30_encoding.md R52: `START` is selected by `word & 2^128 = 2^128`; then bits 127:64 are `data` and bits 63:0 are
`len`, and every value of either is legal. -/
def Obligations.FormatHFields : Prop :=
  (∀ w : CommandWord, w &&& BitVec.ofNat 129 (2 ^ 128) = BitVec.ofNat 129 (2 ^ 128) →
    ∃ data len : Word, decode (.h w) = .ok (.start data len) ∧
      data.toNat = w.toNat / 2 ^ 64 % 2 ^ 64 ∧ len.toNat = w.toNat % 2 ^ 64) ∧
  (∀ w : CommandWord, w &&& BitVec.ofNat 129 (2 ^ 128) ≠ BitVec.ofNat 129 (2 ^ 128) →
    decode (.h w) = .error .noCommand) ∧
  (∀ data len : Word, ∃ w : CommandWord, w.toNat = 2 ^ 128 + data.toNat * 2 ^ 64 + len.toNat ∧
    decode (.h w) = .ok (.start data len))

/-- Decode and encode agree in both directions, over R51 and R52: every instruction reads back from its word, and
every word that decodes is the word of what it decodes to. -/
def Obligations.EncodeDecodeAgree : Prop :=
  (∀ i : Instr, decode (encode i) = .ok i) ∧
  (∀ (w : PortWord) (i : Instr), decode w = .ok i → encode i = w)

/-- The opcode table's numbering: an instruction's word, read as the table's row of its format is, gives it back. -/
def Obligations.TableWordsReadBack : Prop :=
  ∀ i : Instr, decodeTableWord (8 * (encode i).port.byteLength) (encode i).toNat = some i

/-- Words written out from R51 and R52 decode to what they stand for. -/
def Obligations.WrittenWordsDecode : Prop :=
  decode (.h 0x10000000000001000000000000000000B#129) = .ok (.start 0x1000#64 11#64) ∧
  decode (.h 0x100000000000000000000000000000000#129) = .ok (.start 0#64 0#64) ∧
  decode (.u 1#3) = .ok .lane8 ∧ decode (.u 2#3) = .ok .combine ∧ decode (.u 3#3) = .ok .half2 ∧
  decode (.u 5#3) = .ok .fold ∧ decode (.u 6#3) = .ok .cmpl

/-- Format M (R53, R57): a request is read back from its 66-bit word, whose bits 65:64 are the size code and bits 63:0
the address; code `10` is no request. -/
def Obligations.FormatMReadsBack : Prop :=
  (∀ r : MemRequest, MemRequest.decode r.encode = some r ∧
    r.encode.toNat = r.size.code.toNat * 2 ^ 64 + r.addr.toNat ∧
    2 ^ r.size.code.toNat = r.size.bytes) ∧
  (∀ w : BitVec 66, w.toNat / 2 ^ 64 = 2 → MemRequest.decode w = none) ∧
  (∀ (w : BitVec 66) (r : MemRequest), MemRequest.decode w = some r → r.encode = w)

/-- R53: `LANE8` issues an 8-byte request, `HALF2` a 2-byte one, `ODD1` a 1-byte one, at `cur`; no other code issues
one, and the size code `10` is never issued. -/
def Obligations.RequestsIssued : Prop :=
  ∀ s : State,
    (s.uop = 1#3 → memRequest s = some ⟨.eight, s.cur⟩) ∧
    (s.uop = 3#3 → memRequest s = some ⟨.two, s.cur⟩) ∧
    (s.uop = 4#3 → memRequest s = some ⟨.one, s.cur⟩) ∧
    (s.uop ≠ 1#3 → s.uop ≠ 3#3 → s.uop ≠ 4#3 → memRequest s = none) ∧
    (∀ r, memRequest s = some r → r.encode.extractLsb' 64 2 ≠ 0b10#2)

/-- 30_encoding.md R57: the reserved code is refused and no step writes it; size code `10` is never issued; a word
with `start = 0` does nothing; a `START` while `ready = 0` is not accepted. -/
def Obligations.ReservedEncodings : Prop :=
  (∀ s : State, s.uop = 7#3 → sequencerTurn s = .refused .reservedUop) ∧
  (∀ s t : State, step s = .next t → s.uop ≠ 7#3 → t.uop ≠ 7#3) ∧
  (∀ (s : State) (r : MemRequest), memRequest s = some r → r.size.code ≠ 0b10#2) ∧
  (∀ (s : State) (w : CommandWord), startBit w = false → hostTurn (commandPins w) s = .next s) ∧
  (∀ (s : State) (w : CommandWord), startBit w = true → ready s = false → hostTurn (commandPins w) s = .next s)

/-- R57, R68: the reserved code's one outcome is the refusal `ReservedUop`, in every state. -/
def Obligations.ReservedCodeRefused : Prop :=
  ∀ s : State, exec .reserved7 s = .refused .reservedUop

/-! ### Reset and the state -/

/-- R23: what reset leaves where the spec gives a value: `uop = IDLE`, `valid = 0`, and so `ready = 1`. -/
def Obligations.ResetStateValues : Prop :=
  State.reset.uop = 0b000#3 ∧ State.reset.valid = false ∧ ready State.reset = true ∧ resultPort State.reset = none

/-- The model's choice of log entry 3: at reset no byte is readable. -/
def Obligations.ResetMemoryUnreadable : Prop :=
  ∀ a : Word, Memory.readAt State.reset.mem a = none

/-- 70_reset_and_hazards.md R115: the reset pin, in any state: `uop <- IDLE`, `valid <- 0`, no memory written or read,
`ready = 1`, and the block accepts `START`. It has priority over any read or command presented in the same step: the
next state is that of the reset pin alone. Nothing is said of the registers the rule leaves unspecified. -/
def Obligations.ResetPinWins : Prop :=
  ∀ (s : State) (pins : HostPins), pins.reset = true →
    ∃ t, hostTurn pins s = .next t ∧ t.uop = 0b000#3 ∧ t.valid = false ∧ ready t = true ∧
      (∀ a, Memory.readAt t.mem a = Memory.readAt s.mem a) ∧
      (∀ m : Memory, hostTurn pins { s with mem := m } = .next { t with mem := m }) ∧
      hostTurn { pins with read := false, command := 0#129 } s = .next t ∧
      (∀ data len : Word, ∃ u, exec (.start data len) t = .next u ∧ u.cur = data ∧ u.rem = len ∧ u.sum = 0#64 ∧
        u.sum1 = 0#64 ∧ u.valid = false ∧ u.uop = (if 8 ≤ len.toNat then 1#3 else 2#3))

/-- 60_exceptions.md R103 (a): a read or a command presented with the reset pin is not performed: the read returns
nothing, also where `valid = 1`, and it is not refused where `valid = 0`. What a read returns is seen in the model's
own field `taken` (log entry 5), and the turns to come stay (log entry 4). -/
def Obligations.ResetOverridesRead : Prop :=
  ∀ (s : State) (pins : HostPins), pins.reset = true →
    (∃ t, hostTurn pins s = .next t ∧ t.taken = s.taken ∧ t.turns = s.turns ∧ resultPort t = none) ∧
    (∀ rest, HostNext s pins rest → ∃ t, step s = .next t ∧ t.taken = s.taken ∧ t.turns = rest ∧
      t.uop = 0b000#3 ∧ t.valid = false)

/-- 10_state.md R18: `ready = 1` exactly when `uop = IDLE`, `busy` is `ready = 0`, and after reset `ready = 1`. -/
def Obligations.ReadyMeansIdle : Prop :=
  (∀ s : State, (ready s = true ↔ s.uop = 0b000#3) ∧ (busy s = true ↔ ready s = false)) ∧
  ready State.reset = true ∧ (∀ s : State, ready (resetBlock s) = true)

/-! ### The host's command and read -/

/-- 40_command_and_sequencer.md R66: an accepted `START` writes exactly `sum`, `sum1`, `cur`, `rem`, `valid` and
`uop`, whatever the operands and the memory, and `ready` becomes 0; while busy it is not accepted and the state does
not change. -/
def Obligations.StartBeginsCall : Prop :=
  ∀ (s : State) (data len : Word),
    encode (.start data len) = .h (1#1 ++ data ++ len) ∧
    (s.uop = 0b000#3 → exec (.start data len) s =
      .next { s with sum := 0#64, sum1 := 0#64, cur := data, rem := len, valid := false,
                     uop := if 8 ≤ len.toNat then 1#3 else 2#3 }) ∧
    (s.uop = 0b000#3 → ∃ t, exec (.start data len) s = .next t ∧ ready t = false ∧ resultPort t = none) ∧
    (s.uop ≠ 0b000#3 → exec (.start data len) s = .next s)

/-- R119: whatever command word is presented while a call is in progress, the state does not change: the call is not
disturbed and nothing is remembered; and with `ready = 1` a `START` has its whole effect (R66) and no other. -/
def Obligations.CommandWhileBusyIgnored : Prop :=
  (∀ (s : State) (w : CommandWord), ready s = false → hostTurn (commandPins w) s = .next s) ∧
  (∀ (s : State) (w : CommandWord), ready s = true → startBit w = true →
    ∃ t, hostTurn (commandPins w) s = .next t ∧ ready t = false ∧ t.cur.toNat = w.toNat / 2 ^ 64 % 2 ^ 64 ∧
      t.rem.toNat = w.toNat % 2 ^ 64 ∧
      t = { s with sum := 0#64, sum1 := 0#64, cur := t.cur, rem := t.rem, valid := false,
                   uop := if 8 ≤ t.rem.toNat then 1#3 else 2#3 })

/-- R69: with `valid = 1` the host may read any number of times, gets `result` each time, and nothing of the block
changes; with `valid = 0` the read is refused. The word on the command port is any with `start = 0`. -/
def Obligations.ReadReturnsResult : Prop :=
  (∀ (n : Nat) (s : State) (w : CommandWord) (rest : List Turn), startBit w = false → s.valid = true →
    s.turns = List.replicate n (.host ⟨false, true, w⟩) ++ rest →
    Host.Core.run Sys2Proof.core n s =
      .next { s with turns := rest, taken := s.taken ++ List.replicate n s.result }) ∧
  (∀ (s : State) (w : CommandWord) (rest : List Turn), s.valid = false → HostNext s ⟨false, true, w⟩ rest →
    step s = .refused .resultNotValid)

/-- 30_encoding.md R54: the 16-bit port presents `result`, and a wider view of it has zero high bits. -/
def Obligations.ResultZeroExtended : Prop :=
  (∀ s : State, s.valid = true → resultPort s = some s.result) ∧
  (∀ (width : Nat) (r : Digest), 16 ≤ width → (widenResult width r).toNat = r.toNat ∧
    ∀ k, 16 ≤ k → (widenResult width r).getLsbD k = false)

/-- 60_exceptions.md R103 (c): a read and a `START` presented together behave as the read, which takes the old
`result`, then the `START`. That the value read is added to `taken` is the model's choice of log entry 5. -/
def Obligations.ReadThenStart : Prop :=
  ∀ (s : State) (data len : Word), s.valid = true → s.uop = 0b000#3 →
    hostTurn ⟨false, true, 1#1 ++ data ++ len⟩ s =
      .next { s with sum := 0#64, sum1 := 0#64, cur := data, rem := len, valid := false,
                     uop := if 8 ≤ len.toNat then 1#3 else 2#3, taken := s.taken ++ [s.result] }

/-! ### Memory reads -/

/-- 20_memory.md R31: a read of `n` readable bytes answers their little-endian value in the low `8n` bits, at any
address and with addresses modulo 2^64; with an unreadable byte it answers none. -/
def Obligations.MemReadLittleEndian : Prop :=
  (∀ (m : Memory) (a : Word) (size : MemSize) (b : Nat → Byte),
    (∀ k, k < size.bytes → Memory.readAt m (a + BitVec.ofNat 64 k) = some (b k)) →
    ∃ v : Word, respond m ⟨size, a⟩ = .ok v ∧
      v.toNat % 2 ^ (8 * size.bytes) = ((List.range size.bytes).map fun k => (b k).toNat * 2 ^ (8 * k)).sum) ∧
  (∀ (m : Memory) (a : Word) (size : MemSize),
    (∃ k, k < size.bytes ∧ Memory.readAt m (a + BitVec.ofNat 64 k) = none) → ∃ c, respond m ⟨size, a⟩ = .error c)

/-- R41, R101, R103 (d): the three reading micro-operations stop with `UnreadableByte(c)` exactly when `c` is the
lowest unreadable address of the bytes they read. Numerically lowest where an access wraps is the model's reading (log
entry 7). -/
def Obligations.ReadersFaultOnLowestUnreadable : Prop :=
  ∀ (s : State) (c : Word),
    (exec .lane8 s = .fault (.unreadableByte c) ↔ LowestUnreadable s.mem s.cur 8 c) ∧
    (exec .half2 s = .fault (.unreadableByte c) ↔ LowestUnreadable s.mem s.cur 2 c) ∧
    (exec .odd1 s = .fault (.unreadableByte c) ↔ LowestUnreadable s.mem s.cur 1 c)

/-- 20_memory.md R35: no step of any agent changes what any address reads as. -/
def Obligations.NoStepWritesMemory : Prop :=
  ∀ (s t : State), step s = .next t → ∀ a, Memory.readAt t.mem a = Memory.readAt s.mem a

/-! ### The micro-operations -/

/-- R68: a sequencer turn in `IDLE` is the hold: no field changes. -/
def Obligations.IdleHolds : Prop :=
  (∀ s : State, exec .idle s = .next s) ∧
  (∀ s : State, s.uop = 0b000#3 → s.turns = [] → step s = .next s) ∧
  (∀ (s : State) (rest : List Turn), s.uop = 0b000#3 → s.turns = .sequencer :: rest →
    step s = .next { s with turns := rest })

/-- 41_lane_adder.md R80: `LANE8` with its eight bytes readable. Each lane goes to its own accumulator modulo 2^64;
the carry out of bit 31 is kept; `cur` has any alignment; nothing but `sum`, `sum1`, `cur`, `rem` and `uop` changes.
The model's choices: with fewer than 8 bytes remaining, which no run reaches (R24), `rem` is a free value and all
else is as said (log entry 6); the lowest unreadable byte of an access that wraps is the numerically lowest (log
entry 7). -/
def Obligations.LaneEightAddsLanes : Prop :=
  encode .lane8 = .u 0b001#3 ∧
  (∀ (s : State) (b : Nat → Byte),
    (∀ k, k < 8 → Memory.readAt s.mem (s.cur + BitVec.ofNat 64 k) = some (b k)) →
    ∃ t, exec .lane8 s = .next t ∧
      t.sum.toNat = (s.sum.toNat + ((b 0).toNat + (b 1).toNat * 2 ^ 8 + (b 2).toNat * 2 ^ 16
        + (b 3).toNat * 2 ^ 24)) % 2 ^ 64 ∧
      t.sum1.toNat = (s.sum1.toNat + ((b 4).toNat + (b 5).toNat * 2 ^ 8 + (b 6).toNat * 2 ^ 16
        + (b 7).toNat * 2 ^ 24)) % 2 ^ 64 ∧
      t.cur.toNat = (s.cur.toNat + 8) % 2 ^ 64 ∧
      (8 ≤ s.rem.toNat → t.rem.toNat = s.rem.toNat - 8 ∧ t.draws = s.draws) ∧
      t.uop = (if 8 ≤ t.rem.toNat then 0b001#3 else 0b010#3) ∧
      t = { s with sum := t.sum, sum1 := t.sum1, cur := t.cur, rem := t.rem, uop := t.uop, draws := t.draws }) ∧
  (∀ (s : State) (c : Word), LowestUnreadable s.mem s.cur 8 c → exec .lane8 s = .fault (.unreadableByte c))

/-- 41_lane_adder.md R81: `COMBINE` in every state: `sum <- sum + sum1` modulo 2^64, then the successor by `rem` and
the new `sum`; nothing but `sum` and `uop` changes. -/
def Obligations.CombineAddsHighLane : Prop :=
  encode .combine = .u 0b010#3 ∧
  ∀ s : State, ∃ t, exec .combine s = .next t ∧
    t.sum.toNat = (s.sum.toNat + s.sum1.toNat) % 2 ^ 64 ∧
    t.uop = (if 2 ≤ s.rem.toNat then 0b011#3 else if s.rem.toNat = 1 then 0b100#3
      else if 2 ^ 16 ≤ t.sum.toNat then 0b101#3 else 0b110#3) ∧
    t = { s with sum := t.sum, uop := t.uop }

/-- 42_tail.md R85: `HALF2` with its two bytes readable: the first byte is the low byte. The model's choices: with
fewer than 2 bytes remaining, which no run reaches (R24), `rem` is a free value and all else is as said (log entry 6);
the lowest unreadable byte of an access that wraps is the numerically lowest (log entry 7). -/
def Obligations.HalfTwoAddsHalfWord : Prop :=
  encode .half2 = .u 0b011#3 ∧
  (∀ (s : State) (b₀ b₁ : Byte), Memory.readAt s.mem s.cur = some b₀ → Memory.readAt s.mem (s.cur + 1#64) = some b₁ →
    ∃ t, exec .half2 s = .next t ∧
      t.sum.toNat = (s.sum.toNat + (b₀.toNat + 256 * b₁.toNat)) % 2 ^ 64 ∧
      t.cur.toNat = (s.cur.toNat + 2) % 2 ^ 64 ∧
      (2 ≤ s.rem.toNat → t.rem.toNat = s.rem.toNat - 2 ∧ t.draws = s.draws) ∧
      t.uop = (if 2 ≤ t.rem.toNat then 0b011#3 else if t.rem.toNat = 1 then 0b100#3
        else if 2 ^ 16 ≤ t.sum.toNat then 0b101#3 else 0b110#3) ∧
      t = { s with sum := t.sum, cur := t.cur, rem := t.rem, uop := t.uop, draws := t.draws }) ∧
  (∀ (s : State) (c : Word), LowestUnreadable s.mem s.cur 2 c → exec .half2 s = .fault (.unreadableByte c))

/-- 42_tail.md R86: `ODD1` with its one byte readable: the byte is added unshifted and zero-extended, and the byte
after it plays no part. The model's choice of log entry 6: with nothing remaining, which no run reaches (R24), `rem`
is a free value and all else is as said. -/
def Obligations.OddOneAddsByte : Prop :=
  encode .odd1 = .u 0b100#3 ∧
  (∀ (s : State) (b : Byte), Memory.readAt s.mem s.cur = some b →
    ∃ t, exec .odd1 s = .next t ∧
      t.sum.toNat = (s.sum.toNat + b.toNat) % 2 ^ 64 ∧
      t.cur.toNat = (s.cur.toNat + 1) % 2 ^ 64 ∧
      (1 ≤ s.rem.toNat → t.rem.toNat = s.rem.toNat - 1 ∧ t.draws = s.draws) ∧
      t.uop = (if 2 ^ 16 ≤ t.sum.toNat then 0b101#3 else 0b110#3) ∧
      t = { s with sum := t.sum, cur := t.cur, rem := t.rem, uop := t.uop, draws := t.draws }) ∧
  (∀ s : State, Memory.readAt s.mem s.cur = none → exec .odd1 s = .fault (.unreadableByte s.cur))

/-- 43_fold.md R90: `FOLD` in every state: one end-around-carry fold as integers, which cannot wrap and never gives 0
from 2^16 or more; again while the new `sum` is 2^16 or more; nothing but `sum` and `uop` changes. Where it is enabled
in a call, `sum` is at least 2^16 and nothing remains. -/
def Obligations.FoldStep : Prop :=
  encode .fold = .u 0b101#3 ∧
  ∀ s : State, ∃ t, exec .fold s = .next t ∧
    t.sum.toNat = s.sum.toNat % 2 ^ 16 + s.sum.toNat / 2 ^ 16 ∧
    t.uop = (if 2 ^ 16 ≤ t.sum.toNat then 0b101#3 else 0b110#3) ∧
    (2 ^ 16 ≤ s.sum.toNat → t.sum.toNat ≠ 0) ∧
    (CallInv s → s.uop = 0b101#3 → 2 ^ 16 ≤ s.sum.toNat ∧ s.rem = 0#64) ∧
    t = { s with sum := t.sum, uop := t.uop }

/-- 44_complement_output.md R95: `CMPL` in every state: `result <- (~sum)[15:0]`, `valid <- 1`, `uop <- IDLE`, in one
step; nothing else changes; no other operation writes `result` or sets `valid`. Where it is enabled in a call, `sum`
is below 2^16 and nothing remains. -/
def Obligations.ComplementEndsCall : Prop :=
  encode .cmpl = .u 0b110#3 ∧
  (∀ s : State, ∃ t, exec .cmpl s = .next t ∧
    t.result.toNat = 0xFFFF - s.sum.toNat % 2 ^ 16 ∧
    t.result = (s.sum.extractLsb' 0 16) ^^^ 0xFFFF#16 ∧
    t.valid = true ∧ t.uop = 0b000#3 ∧ ready t = true ∧
    (CallInv s → s.uop = 0b110#3 → s.sum.toNat < 2 ^ 16 ∧ s.rem = 0#64) ∧
    t = { s with result := t.result, valid := true, uop := 0b000#3 }) ∧
  (∀ (i : Instr) (s t : State), i ≠ .cmpl → exec i s = .next t →
    t.result = s.result ∧ (t.valid = true → s.valid = true))

/-- R67: the three sequencing functions, and which operation calls which, on the values after the operation. -/
def Obligations.SequencingFunctions : Prop :=
  (∀ r : Word, (8 ≤ r.toNat → seqLane r = 0b001#3) ∧ (r.toNat < 8 → seqLane r = 0b010#3)) ∧
  (∀ v : Word, (2 ^ 16 ≤ v.toNat → seqFold v = 0b101#3) ∧ (v.toNat < 2 ^ 16 → seqFold v = 0b110#3)) ∧
  (∀ r v : Word, (2 ≤ r.toNat → seqTail r v = 0b011#3) ∧ (r.toNat = 1 → seqTail r v = 0b100#3) ∧
    (r.toNat = 0 → seqTail r v = seqFold v)) ∧
  (∀ (s t : State) (data len : Word), s.uop = 0b000#3 → exec (.start data len) s = .next t → t.uop = seqLane t.rem) ∧
  (∀ s t : State, exec .lane8 s = .next t → t.uop = seqLane t.rem) ∧
  (∀ s t : State, exec .combine s = .next t → t.uop = seqTail t.rem t.sum) ∧
  (∀ s t : State, exec .half2 s = .next t → t.uop = seqTail t.rem t.sum) ∧
  (∀ s t : State, exec .odd1 s = .next t → t.uop = seqFold t.sum) ∧
  (∀ s t : State, exec .fold s = .next t → t.uop = seqFold t.sum) ∧
  (∀ s t : State, exec .cmpl s = .next t → t.uop = 0b000#3)

/-- R10's column "written by" as a frame over all instructions: which registers each instruction may change. No
instruction changes a byte of memory, the turns to come or what the host has taken. -/
def Obligations.InstructionFrames : Prop :=
  ∀ (i : Instr) (s t : State), exec i s = .next t →
    (∀ a, Memory.readAt t.mem a = Memory.readAt s.mem a) ∧ t.turns = s.turns ∧ t.taken = s.taken ∧ KeptBy i s t

/-- R101: the model stops only with the outcomes of its list. An instruction faults only as a read of an unreadable
byte and refuses only as the reserved code; a step refuses besides only a host read while `valid = 0`. -/
def Obligations.OnlyListedOutcomes : Prop :=
  (∀ (i : Instr) (s : State) (f : Fault), exec i s = .fault f →
    (i = .lane8 ∨ i = .half2 ∨ i = .odd1) ∧ ∃ a, f = .unreadableByte a ∧ Memory.readAt s.mem a = none) ∧
  (∀ (i : Instr) (s : State) (r : Refusal), exec i s = .refused r → i = .reserved7 ∧ r = .reservedUop) ∧
  (∀ (i : Instr) (s : State) (r : Refusal), i.wellFormed = true → exec i s ≠ .refused r) ∧
  (∀ (s : State) (f : Fault), step s = .fault f →
    SequencerNext s ∧ (s.uop = 1#3 ∨ s.uop = 3#3 ∨ s.uop = 4#3) ∧
      ∃ a, f = .unreadableByte a ∧ Memory.readAt s.mem a = none) ∧
  (∀ (s : State) (r : Refusal), step s = .refused r →
    (r = .reservedUop ∧ SequencerNext s ∧ s.uop = 7#3) ∨
    (r = .resultNotValid ∧ s.valid = false ∧
      ∃ pins rest, HostNext s pins rest ∧ pins.read = true ∧ pins.reset = false))

/-! ### A step -/

/-- R15, R68: a step runs the instruction decoded from what the moving agent presents: the sequencer the code in
`uop`, the host the word on its command port, after its other pins. What stands around `exec` is the turn used up,
which is the model's convention (log entry 4). -/
def Obligations.StepRunsDecoded : Prop :=
  (∀ (s : State) (i : Instr), s.turns = [] → decode (.u s.uop) = .ok i → step s = exec i s) ∧
  (∀ (s : State) (i : Instr) (rest : List Turn), s.turns = .sequencer :: rest → decode (.u s.uop) = .ok i →
    step s = exec i { s with turns := rest }) ∧
  (∀ (s : State) (i : Instr) (w : CommandWord) (rest : List Turn), s.turns = .host (commandPins w) :: rest →
    decode (.h w) = .ok i → step s = exec i { s with turns := rest }) ∧
  (∀ (s : State) (pins : HostPins) (rest : List Turn), s.turns = .host pins :: rest →
    step s = hostTurn pins { s with turns := rest })

/-- The model's convention of log entry 11: a table word placed with `withFetchWord` is what the next step runs, in
every state. -/
def Obligations.PlacedWordRunsNext : Prop :=
  (∀ (s : State) (data len : Word),
    step (s.withFetchWord 136 (encode (.start data len)).toNat) = exec (.start data len) s) ∧
  (∀ (s : State) (c : Code), step (s.withFetchWord 8 c.toNat) = exec (decodeUop c) { s with uop := c })

/-! ### Invariants -/

/-- 10_state.md R24 (which the spec marks as derived from its rules): the facts of a call hold again after every step
of either agent, from every state in which they hold. -/
def Obligations.CallInvariantKept : Prop :=
  ∀ s t : State, CallInv s → step s = .next t → CallInv t

/-- R23, R24: the facts hold at reset. -/
def Obligations.CallInvariantAtReset : Prop :=
  CallInv State.reset

/-- 10_state.md R24 items 1 to 8 (which the spec marks as derived from its rules): a call in progress with these
facts, for its `data`, its `len` and the bytes `b` it has read so far, has them again after every step, for the bytes
read by then, until `CMPL` ends it or the reset pin abandons it. A region that wraps is read too (log entry 15). -/
def Obligations.CallFactsKept : Prop :=
  ∀ (data len : Word) (b : List Byte) (s t : State), CallFacts data len b s → step s = .next t →
    (∃ more, CallFacts data len (b ++ more) t) ∨
    (SequencerNext s ∧ s.uop = 0b110#3 ∧ CallEnded t) ∨
    (∃ pins rest, HostNext s pins rest ∧ pins.reset = true ∧ t.uop = 0b000#3 ∧ t.valid = false)

/-- 10_state.md R24 (which the spec marks as derived from its rules): an accepted `START` establishes the facts of its
call, with nothing read yet. -/
def Obligations.StartEstablishesCallFacts : Prop :=
  ∀ (s : State) (data len : Word), s.uop = 0b000#3 →
    ∃ t, exec (.start data len) s = .next t ∧ CallFacts data len [] t

/-- R24 item 1 (marked as derived) with R13 and R14: a sequencer turn moves the cursor exactly as far as it lowers the
remaining length, and no subtraction goes below zero. -/
def Obligations.CursorTracksRemaining : Prop :=
  ∀ s t : State, CallInv s → SequencerNext s → step s = .next t →
    t.cur + t.rem = s.cur + s.rem ∧ t.rem.toNat ≤ s.rem.toNat ∧ t.draws = s.draws

/-- R17, R19, R95 (d): only `CMPL` sets `valid`; only `RESET` and an accepted `START` clear it; no operation but
`CMPL` writes `result` (after `RESET` it holds no value). -/
def Obligations.ValidAndResultWriters : Prop :=
  ∀ s t : State, step s = .next t →
    (s.valid = false → t.valid = true → SequencerNext s ∧ s.uop = 6#3) ∧
    (s.valid = true → t.valid = false → ∃ pins rest, HostNext s pins rest ∧
      (pins.reset = true ∨ (s.uop = 0b000#3 ∧ startBit pins.command = true))) ∧
    (t.result ≠ s.result → (SequencerNext s ∧ s.uop = 6#3) ∨ ∃ pins rest, HostNext s pins rest ∧ pins.reset = true)

/-- R68's table of successors: which codes each operation can write. -/
def Obligations.SuccessorTable : Prop :=
  ∀ (i : Instr) (s t : State), exec i s = .next t → SuccessorOf i s t

/-- R68: while a call is in progress the only host action that can interfere with it is `RESET`; any other is a
refused read or leaves the state as it is. -/
def Obligations.OnlyResetDisturbsCall : Prop :=
  ∀ (s : State) (pins : HostPins), CallInv s → s.uop ≠ 0b000#3 → pins.reset = false →
    (pins.read = true → hostTurn pins s = .refused .resultNotValid) ∧
    (pins.read = false → hostTurn pins s = .next s)

/-- R36, R73 (R36 is marked as derived): a step depends on no byte outside the bytes that remain: with another memory
that agrees on `{cur .. cur+rem-1}` it does the same. -/
def Obligations.StepReadsOnlyRegion : Prop :=
  ∀ (s : State) (m : Memory), CallInv s → SequencerNext s →
    (∀ k, k < s.rem.toNat → Memory.readAt m (s.cur + BitVec.ofNat 64 k) = Memory.readAt s.mem (s.cur + BitVec.ofNat 64 k)) →
    (∀ t, step s = .next t → step { s with mem := m } = .next { t with mem := m }) ∧
    (∀ f, step s = .fault f → step { s with mem := m } = .fault f)

/-! ### Folding and the digest as functions -/

/-- 43_fold.md R92 (which the spec marks as derived from R90): the closed form of repeated folding, its zero, its
`0xFFFF` and its remainder. -/
def Obligations.FoldClosedForm : Prop :=
  ∀ x : Nat, x < 2 ^ 64 →
    fold x = (if x = 0 then 0 else 1 + (x - 1) % 65535) ∧ fold x ≤ 0xFFFF ∧ (fold x = 0 ↔ x = 0) ∧
    (fold x = 0xFFFF ↔ x ≠ 0 ∧ x % 65535 = 0) ∧ fold x % 65535 = x % 65535

/-- 43_fold.md R91 (which the spec marks as derived from R90): the number of folds is the least that brings the value
below 2^16; none below 2^16, at most two below 2^32, at most four below 2^64, with the table's bound after each; four
are reached. -/
def Obligations.FoldCountBounds : Prop :=
  (∀ x : Nat, fold1^[foldCount x] x < 2 ^ 16 ∧ ∀ n, n < foldCount x → 2 ^ 16 ≤ fold1^[n] x) ∧
  (∀ x : Nat, x < 2 ^ 16 → foldCount x = 0) ∧
  (∀ x : Nat, x < 2 ^ 32 → foldCount x ≤ 2 ∧ fold1 x ≤ 0x1FFFE ∧ fold1^[2] x ≤ 0xFFFF) ∧
  (∀ x : Nat, x < 2 ^ 64 → foldCount x ≤ 4 ∧ fold1 x ≤ 2 ^ 48 + 0xFFFE ∧ fold1^[2] x ≤ 2 ^ 32 + 0xFFFE ∧
    fold1^[3] x ≤ 0x1FFFE ∧ fold1^[4] x ≤ 0xFFFF) ∧
  foldCount 0xFFFFFFFFFFFFFFFF = 4

/-- R91, R93 (R91 is marked as derived): from `FOLD` the sequencer folds `sum` in place, as many times as `foldCount`
says, and reaches `CMPL` with `sum` the folded value and every other field as it was. -/
def Obligations.FolderReachesSixteenBits : Prop :=
  ∀ s : State, s.turns = [] → s.uop = 0b101#3 → 2 ^ 16 ≤ s.sum.toNat →
    Host.Core.run Sys2Proof.core (foldCount s.sum.toNat) s =
      .next { s with sum := BitVec.ofNat 64 (fold s.sum.toNat), uop := 0b110#3 } ∧
    fold s.sum.toNat < 2 ^ 16

/-- R71 items 2 to 4 (marked as derived): the lane total and the 16-bit sum agree modulo 65535 and in being zero, so
they fold alike. -/
def Obligations.LaneTotalFoldsLikeWords : Prop :=
  ∀ b : List Byte, laneTotal b % 65535 = w16 b % 65535 ∧ (laneTotal b = 0 ↔ w16 b = 0) ∧
    (laneTotal b = 0 ↔ ∀ x ∈ b, x = 0#8) ∧ fold (laneTotal b) = fold (w16 b)

/-- 41_lane_adder.md R83: up to 2^34 + 7 bytes the total fits in 64 bits whatever the data; with 2^34 + 8 bytes of
`0xFF` it does not. -/
def Obligations.NoWrapUpToBound : Prop :=
  (∀ b : List Byte, b.length ≤ Config.safeLength → laneTotal b < 2 ^ 64) ∧
  (∀ b : List Byte, laneTotal b ≤ 2 * (b.length / 8) * (2 ^ 32 - 1) + 196860) ∧
  laneTotal (List.replicate (2 ^ 34 + 8) 0xFF#8) = 2 ^ 64 + 2 ^ 32 - 2

/-- R72 P3, P4, P5 of the function of R65: a zero buffer gives `0xFFFF`, an even all-ones buffer `0x0000`, two bytes
are one little-endian word. -/
def Obligations.DigestProperties : Prop :=
  (∀ n : Nat, digestOf (List.replicate n 0x00#8) = 0xFFFF#16) ∧
  (∀ n : Nat, n % 2 = 0 → 2 ≤ n → digestOf (List.replicate n 0xFF#8) = 0x0000#16) ∧
  (∀ a b : Byte, digestOf [a, b] = ~~~(b ++ a))

/-- R72 P7 with 90_conflicts.md C4: an even-length front part and the rest have 16-bit sums that add up, and lane
totals that add up modulo 65535. -/
def Obligations.EvenSplitAddsUp : Prop :=
  ∀ p q : List Byte, p.length % 2 = 0 →
    w16 (p ++ q) = w16 p + w16 q ∧ laneTotal (p ++ q) % 65535 = (laneTotal p + laneTotal q) % 65535

/-- R65, R96 (R96 is marked as derived): the digest is `0xFFFF` exactly for bytes that are all zero, `0x0000` exactly
where the 16-bit sum is a nonzero multiple of 65535, and every 16-bit value is a digest. -/
def Obligations.DigestExtremes : Prop :=
  (∀ b : List Byte, digestOf b = 0xFFFF#16 ↔ ∀ x ∈ b, x = 0#8) ∧
  (∀ b : List Byte, digestOf b = 0x0000#16 ↔ w16 b ≠ 0 ∧ w16 b % 65535 = 0) ∧
  (∀ r : Digest, ∃ b : List Byte, digestOf b = r)

/-- 44_complement_output.md R97 (which the spec marks as derived from R65 and R92): a digest stored little-endian
after an even-length buffer, or over two zero bytes at an even offset, makes the digest `0x0000`. -/
def Obligations.SelfCheckGivesZero : Prop :=
  (∀ b : List Byte, b.length % 2 = 0 →
    digestOf (b ++ [(digestOf b).extractLsb' 0 8, (digestOf b).extractLsb' 8 8]) = 0x0000#16) ∧
  (∀ p q : List Byte, p.length % 2 = 0 →
    digestOf (p ++ [(digestOf (p ++ [0#8, 0#8] ++ q)).extractLsb' 0 8,
      (digestOf (p ++ [0#8, 0#8] ++ q)).extractLsb' 8 8] ++ q) = 0x0000#16)

/-! ### Whole calls -/

/-- R72 P1, R36: an empty call ends with `0xFFFF`; its operations are `COMBINE` and `CMPL`, and it issues no read,
whatever the address and whatever is readable. One host turn and two sequencer turns are its schedule (log entry
4). -/
def Obligations.EmptyCall : Prop :=
  ∀ (s : State) (data : Word), s.uop = 0b000#3 → s.turns = [startTurn data 0#64] →
    (∃ t, Host.Core.run Sys2Proof.core 3 s = .next t ∧ CallEnded t ∧ t.result = 0xFFFF#16) ∧
      operationsInRun 3 s = [.combine, .cmpl] ∧ requestsInRun 3 s = []

/-- 40_command_and_sequencer.md R70 (which the spec marks as derived), for every length: a call on a readable region
ends after exactly `steps(len, f)` sequencer steps, `f` between 0 and 4 the folds of the total modulo 2^64 (R83), with
the complement of that total's fold. The premise of R42, that the region does not wrap, is dropped: that is the
model's reading of log entry 15. -/
def Obligations.CallEndsInExactSteps : Prop :=
  ∀ (s : State) (data len : Word) (b : List Byte), s.uop = 0b000#3 → s.turns = [startTurn data len] →
    Memory.region s.mem data len.toNat = some b →
    ∃ f t, f = foldCount (laneTotal b % 2 ^ 64) ∧ f ≤ 4 ∧
      Host.Core.run Sys2Proof.core (1 + stepsOfCall len.toNat f) s = .next t ∧ CallEnded t ∧
      t.result = complementOf (fold (laneTotal b % 2 ^ 64)) ∧ t.rem = 0#64 ∧ t.mem = s.mem ∧
      len.toNat / 8 + 2 ≤ stepsOfCall len.toNat f ∧ stepsOfCall len.toNat f ≤ len.toNat / 8 + 10 ∧
      (∀ n u, n < 1 + stepsOfCall len.toNat f → 0 < n → Host.Core.run Sys2Proof.core n s = .next u →
        u.uop ≠ 0b000#3)

/-- R71 (which the spec marks as derived), R124: the block computes `digest`. From any state with `uop = IDLE`, a
`START` on a readable region of at most 2^34 + 7 bytes, then any turns of the two agents without a reset or a read, of
which the sequencer's are as many as the call has steps, the last of them the last turn: the call has ended and
`result = digest(Mem, data, len)`. That the turns after the last are still to come is the schedule of log entry 4. The
premise of R42, that the region does not wrap, is dropped: that is the model's reading of log entry 15. -/
def Obligations.CallComputesDigest : Prop :=
  ∀ (s : State) (data len : Word) (d : Digest) (b : List Byte) (during rest : List Turn), s.uop = 0b000#3 →
    Memory.region s.mem data len.toNat = some b → digest s.mem data len.toNat = some d →
    len.toNat ≤ Config.safeLength →
    s.turns = startTurn data len :: (during ++ .sequencer :: rest) → (∀ t ∈ during, Undisturbing t) →
    sequencerTurns during + 1 = stepsOfCall len.toNat (foldCount (laneTotal b)) →
    ∃ t, Host.Core.run Sys2Proof.core (during.length + 2) s = .next t ∧ CallEnded t ∧ t.result = d ∧ t.turns = rest

/-- R73: the result of a call depends on the bytes of the region alone: not on where they lie, on the state before, or
on any other byte. The premise of R42, that the region does not wrap, is dropped: that is the model's reading of log
entry 15. -/
def Obligations.ResultDependsOnBytesAlone : Prop :=
  ∀ (s₁ s₂ : State) (data₁ data₂ len : Word) (b : List Byte), s₁.uop = 0b000#3 → s₂.uop = 0b000#3 →
    s₁.turns = [startTurn data₁ len] → s₂.turns = [startTurn data₂ len] →
    Memory.region s₁.mem data₁ len.toNat = some b → Memory.region s₂.mem data₂ len.toNat = some b →
    ∃ n t₁ t₂, Host.Core.run Sys2Proof.core n s₁ = .next t₁ ∧ Host.Core.run Sys2Proof.core n s₂ = .next t₂ ∧
      CallEnded t₁ ∧ CallEnded t₂ ∧ t₁.result = t₂.result

/-- R34, R36, R37 (R36 and R37 are marked as derived): a call on a readable region issues exactly the reads R36 lists,
in that order. The premise of R42, that the region does not wrap, is dropped: that is the model's reading of log entry
15. -/
def Obligations.CallIssuesListedReads : Prop :=
  ∀ (s : State) (data len : Word) (b : List Byte), s.uop = 0b000#3 → s.turns = [startTurn data len] →
    Memory.region s.mem data len.toNat = some b →
    requestsInRun (1 + stepsOfCall len.toNat (foldCount (laneTotal b % 2 ^ 64))) s = requestsOfCall data len.toNat

/-- 30_encoding.md R60, 42_tail.md R87 (both marked as derived): the sequencer's operations of a call are, in order,
one `LANE8` for each whole chunk, one `COMBINE`, the `HALF2`s of the tail, `ODD1` exactly for an odd length, the
folds, and `CMPL`. The premise of R42, that the region does not wrap, is dropped: that is the model's reading of log
entry 15. -/
def Obligations.CallTrace : Prop :=
  ∀ (s : State) (data len : Word) (b : List Byte), s.uop = 0b000#3 → s.turns = [startTurn data len] →
    Memory.region s.mem data len.toNat = some b →
    operationsInRun (1 + stepsOfCall len.toNat (foldCount (laneTotal b % 2 ^ 64))) s =
      operationsOfCall len.toNat (foldCount (laneTotal b % 2 ^ 64))

/-- R41, U1: a call whose region has an unreadable byte stops with `UnreadableByte(a)` at such a byte of the region.
The premise of R42, that the region does not wrap, is dropped: that is the model's reading of log entry 15. -/
def Obligations.UnreadableRegionStopsCall : Prop :=
  ∀ (s : State) (data len : Word), s.uop = 0b000#3 → s.turns = [startTurn data len] →
    ¬ Readable s.mem data len.toNat →
    ∃ n a, Host.Core.run Sys2Proof.core n s = .fault (.unreadableByte a) ∧ Memory.readAt s.mem a = none ∧
      ∃ k, k < len.toNat ∧ a = data + BitVec.ofNat 64 k
end

