-- ==== Sys2Proof/Laws/State.lean ====
section
/-! SUPPORT. What each register update of Machine/Ops.lean leaves in each field of State. -/

namespace Sys2Proof.Machine

variable (s : State)

@[simp] theorem addToSum_sum (v : Word) : (addToSum v s).sum = s.sum + v := rfl
@[simp] theorem addToSum_sum1 (v : Word) : (addToSum v s).sum1 = s.sum1 := rfl
@[simp] theorem addToSum_cur (v : Word) : (addToSum v s).cur = s.cur := rfl
@[simp] theorem addToSum_rem (v : Word) : (addToSum v s).rem = s.rem := rfl
@[simp] theorem addToSum_uop (v : Word) : (addToSum v s).uop = s.uop := rfl
@[simp] theorem addToSum_result (v : Word) : (addToSum v s).result = s.result := rfl
@[simp] theorem addToSum_valid (v : Word) : (addToSum v s).valid = s.valid := rfl
@[simp] theorem addToSum_mem (v : Word) : (addToSum v s).mem = s.mem := rfl
@[simp] theorem addToSum_turns (v : Word) : (addToSum v s).turns = s.turns := rfl
@[simp] theorem addToSum_taken (v : Word) : (addToSum v s).taken = s.taken := rfl
@[simp] theorem addToSum_draws (v : Word) : (addToSum v s).draws = s.draws := rfl

@[simp] theorem addToSum1_sum (v : Word) : (addToSum1 v s).sum = s.sum := rfl
@[simp] theorem addToSum1_sum1 (v : Word) : (addToSum1 v s).sum1 = s.sum1 + v := rfl
@[simp] theorem addToSum1_cur (v : Word) : (addToSum1 v s).cur = s.cur := rfl
@[simp] theorem addToSum1_rem (v : Word) : (addToSum1 v s).rem = s.rem := rfl
@[simp] theorem addToSum1_uop (v : Word) : (addToSum1 v s).uop = s.uop := rfl
@[simp] theorem addToSum1_result (v : Word) : (addToSum1 v s).result = s.result := rfl
@[simp] theorem addToSum1_valid (v : Word) : (addToSum1 v s).valid = s.valid := rfl
@[simp] theorem addToSum1_mem (v : Word) : (addToSum1 v s).mem = s.mem := rfl
@[simp] theorem addToSum1_turns (v : Word) : (addToSum1 v s).turns = s.turns := rfl
@[simp] theorem addToSum1_taken (v : Word) : (addToSum1 v s).taken = s.taken := rfl
@[simp] theorem addToSum1_draws (v : Word) : (addToSum1 v s).draws = s.draws := rfl

@[simp] theorem setSum_sum (v : Word) : (setSum v s).sum = v := rfl
@[simp] theorem setSum_sum1 (v : Word) : (setSum v s).sum1 = s.sum1 := rfl
@[simp] theorem setSum_cur (v : Word) : (setSum v s).cur = s.cur := rfl
@[simp] theorem setSum_rem (v : Word) : (setSum v s).rem = s.rem := rfl
@[simp] theorem setSum_uop (v : Word) : (setSum v s).uop = s.uop := rfl
@[simp] theorem setSum_result (v : Word) : (setSum v s).result = s.result := rfl
@[simp] theorem setSum_valid (v : Word) : (setSum v s).valid = s.valid := rfl
@[simp] theorem setSum_mem (v : Word) : (setSum v s).mem = s.mem := rfl
@[simp] theorem setSum_turns (v : Word) : (setSum v s).turns = s.turns := rfl
@[simp] theorem setSum_taken (v : Word) : (setSum v s).taken = s.taken := rfl
@[simp] theorem setSum_draws (v : Word) : (setSum v s).draws = s.draws := rfl

@[simp] theorem goTo_sum (c : Code) : (goTo c s).sum = s.sum := rfl
@[simp] theorem goTo_sum1 (c : Code) : (goTo c s).sum1 = s.sum1 := rfl
@[simp] theorem goTo_cur (c : Code) : (goTo c s).cur = s.cur := rfl
@[simp] theorem goTo_rem (c : Code) : (goTo c s).rem = s.rem := rfl
@[simp] theorem goTo_uop (c : Code) : (goTo c s).uop = c := rfl
@[simp] theorem goTo_result (c : Code) : (goTo c s).result = s.result := rfl
@[simp] theorem goTo_valid (c : Code) : (goTo c s).valid = s.valid := rfl
@[simp] theorem goTo_mem (c : Code) : (goTo c s).mem = s.mem := rfl
@[simp] theorem goTo_turns (c : Code) : (goTo c s).turns = s.turns := rfl
@[simp] theorem goTo_taken (c : Code) : (goTo c s).taken = s.taken := rfl
@[simp] theorem goTo_draws (c : Code) : (goTo c s).draws = s.draws := rfl

@[simp] theorem advance_sum (n : Nat) : (advance n s).sum = s.sum := rfl
@[simp] theorem advance_sum1 (n : Nat) : (advance n s).sum1 = s.sum1 := rfl
@[simp] theorem advance_cur (n : Nat) : (advance n s).cur = s.cur + BitVec.ofNat 64 n := rfl
@[simp] theorem advance_rem (n : Nat) : (advance n s).rem = remAfter n s := rfl
@[simp] theorem advance_uop (n : Nat) : (advance n s).uop = s.uop := rfl
@[simp] theorem advance_result (n : Nat) : (advance n s).result = s.result := rfl
@[simp] theorem advance_valid (n : Nat) : (advance n s).valid = s.valid := rfl
@[simp] theorem advance_mem (n : Nat) : (advance n s).mem = s.mem := rfl
@[simp] theorem advance_turns (n : Nat) : (advance n s).turns = s.turns := rfl
@[simp] theorem advance_taken (n : Nat) : (advance n s).taken = s.taken := rfl
@[simp] theorem advance_draws (n : Nat) : (advance n s).draws = drawsAfter n s := rfl

@[simp] theorem beginCall_sum (data len : Word) : (beginCall data len s).sum = 0#64 := rfl
@[simp] theorem beginCall_sum1 (data len : Word) : (beginCall data len s).sum1 = 0#64 := rfl
@[simp] theorem beginCall_cur (data len : Word) : (beginCall data len s).cur = data := rfl
@[simp] theorem beginCall_rem (data len : Word) : (beginCall data len s).rem = len := rfl
@[simp] theorem beginCall_uop (data len : Word) : (beginCall data len s).uop = s.uop := rfl
@[simp] theorem beginCall_result (data len : Word) : (beginCall data len s).result = s.result := rfl
@[simp] theorem beginCall_valid (data len : Word) : (beginCall data len s).valid = false := rfl
@[simp] theorem beginCall_mem (data len : Word) : (beginCall data len s).mem = s.mem := rfl
@[simp] theorem beginCall_turns (data len : Word) : (beginCall data len s).turns = s.turns := rfl
@[simp] theorem beginCall_taken (data len : Word) : (beginCall data len s).taken = s.taken := rfl
@[simp] theorem beginCall_draws (data len : Word) : (beginCall data len s).draws = s.draws := rfl

@[simp] theorem deliver_sum (r : Digest) : (deliver r s).sum = s.sum := rfl
@[simp] theorem deliver_sum1 (r : Digest) : (deliver r s).sum1 = s.sum1 := rfl
@[simp] theorem deliver_cur (r : Digest) : (deliver r s).cur = s.cur := rfl
@[simp] theorem deliver_rem (r : Digest) : (deliver r s).rem = s.rem := rfl
@[simp] theorem deliver_uop (r : Digest) : (deliver r s).uop = s.uop := rfl
@[simp] theorem deliver_result (r : Digest) : (deliver r s).result = r := rfl
@[simp] theorem deliver_valid (r : Digest) : (deliver r s).valid = true := rfl
@[simp] theorem deliver_mem (r : Digest) : (deliver r s).mem = s.mem := rfl
@[simp] theorem deliver_turns (r : Digest) : (deliver r s).turns = s.turns := rfl
@[simp] theorem deliver_taken (r : Digest) : (deliver r s).taken = s.taken := rfl
@[simp] theorem deliver_draws (r : Digest) : (deliver r s).draws = s.draws := rfl

@[simp] theorem resetBlock_sum : (resetBlock s).sum = Config.freeWord s.draws := rfl
@[simp] theorem resetBlock_sum1 : (resetBlock s).sum1 = Config.freeWord (s.draws + 1) := rfl
@[simp] theorem resetBlock_cur : (resetBlock s).cur = Config.freeWord (s.draws + 2) := rfl
@[simp] theorem resetBlock_rem : (resetBlock s).rem = Config.freeWord (s.draws + 3) := rfl
@[simp] theorem resetBlock_uop : (resetBlock s).uop = 0b000#3 := rfl
@[simp] theorem resetBlock_result : (resetBlock s).result = (Config.freeWord (s.draws + 4)).setWidth 16 := rfl
@[simp] theorem resetBlock_valid : (resetBlock s).valid = false := rfl
@[simp] theorem resetBlock_mem : (resetBlock s).mem = s.mem := rfl
@[simp] theorem resetBlock_turns : (resetBlock s).turns = s.turns := rfl
@[simp] theorem resetBlock_taken : (resetBlock s).taken = s.taken := rfl
@[simp] theorem resetBlock_draws : (resetBlock s).draws = s.draws + 5 := rfl

@[simp] theorem keepTaken_sum (r : Digest) : (keepTaken r s).sum = s.sum := rfl
@[simp] theorem keepTaken_sum1 (r : Digest) : (keepTaken r s).sum1 = s.sum1 := rfl
@[simp] theorem keepTaken_cur (r : Digest) : (keepTaken r s).cur = s.cur := rfl
@[simp] theorem keepTaken_rem (r : Digest) : (keepTaken r s).rem = s.rem := rfl
@[simp] theorem keepTaken_uop (r : Digest) : (keepTaken r s).uop = s.uop := rfl
@[simp] theorem keepTaken_result (r : Digest) : (keepTaken r s).result = s.result := rfl
@[simp] theorem keepTaken_valid (r : Digest) : (keepTaken r s).valid = s.valid := rfl
@[simp] theorem keepTaken_mem (r : Digest) : (keepTaken r s).mem = s.mem := rfl
@[simp] theorem keepTaken_turns (r : Digest) : (keepTaken r s).turns = s.turns := rfl
@[simp] theorem keepTaken_taken (r : Digest) : (keepTaken r s).taken = s.taken ++ [r] := rfl
@[simp] theorem keepTaken_draws (r : Digest) : (keepTaken r s).draws = s.draws := rfl

@[simp] theorem setTurns_sum (rest : List Turn) : (setTurns rest s).sum = s.sum := rfl
@[simp] theorem setTurns_sum1 (rest : List Turn) : (setTurns rest s).sum1 = s.sum1 := rfl
@[simp] theorem setTurns_cur (rest : List Turn) : (setTurns rest s).cur = s.cur := rfl
@[simp] theorem setTurns_rem (rest : List Turn) : (setTurns rest s).rem = s.rem := rfl
@[simp] theorem setTurns_uop (rest : List Turn) : (setTurns rest s).uop = s.uop := rfl
@[simp] theorem setTurns_result (rest : List Turn) : (setTurns rest s).result = s.result := rfl
@[simp] theorem setTurns_valid (rest : List Turn) : (setTurns rest s).valid = s.valid := rfl
@[simp] theorem setTurns_mem (rest : List Turn) : (setTurns rest s).mem = s.mem := rfl
@[simp] theorem setTurns_turns (rest : List Turn) : (setTurns rest s).turns = rest := rfl
@[simp] theorem setTurns_taken (rest : List Turn) : (setTurns rest s).taken = s.taken := rfl
@[simp] theorem setTurns_draws (rest : List Turn) : (setTurns rest s).draws = s.draws := rfl

@[simp] theorem hostStore_sum (a : Word) (b : Byte) : (hostStore a b s).sum = s.sum := rfl
@[simp] theorem hostStore_sum1 (a : Word) (b : Byte) : (hostStore a b s).sum1 = s.sum1 := rfl
@[simp] theorem hostStore_cur (a : Word) (b : Byte) : (hostStore a b s).cur = s.cur := rfl
@[simp] theorem hostStore_rem (a : Word) (b : Byte) : (hostStore a b s).rem = s.rem := rfl
@[simp] theorem hostStore_uop (a : Word) (b : Byte) : (hostStore a b s).uop = s.uop := rfl
@[simp] theorem hostStore_result (a : Word) (b : Byte) : (hostStore a b s).result = s.result := rfl
@[simp] theorem hostStore_valid (a : Word) (b : Byte) : (hostStore a b s).valid = s.valid := rfl
@[simp] theorem hostStore_mem (a : Word) (b : Byte) : (hostStore a b s).mem = Memory.insert s.mem a.toNat b := rfl
@[simp] theorem hostStore_turns (a : Word) (b : Byte) : (hostStore a b s).turns = s.turns := rfl
@[simp] theorem hostStore_taken (a : Word) (b : Byte) : (hostStore a b s).taken = s.taken := rfl
@[simp] theorem hostStore_draws (a : Word) (b : Byte) : (hostStore a b s).draws = s.draws := rfl

@[simp] theorem hostRelease_sum (a : Word) : (hostRelease a s).sum = s.sum := rfl
@[simp] theorem hostRelease_sum1 (a : Word) : (hostRelease a s).sum1 = s.sum1 := rfl
@[simp] theorem hostRelease_cur (a : Word) : (hostRelease a s).cur = s.cur := rfl
@[simp] theorem hostRelease_rem (a : Word) : (hostRelease a s).rem = s.rem := rfl
@[simp] theorem hostRelease_uop (a : Word) : (hostRelease a s).uop = s.uop := rfl
@[simp] theorem hostRelease_result (a : Word) : (hostRelease a s).result = s.result := rfl
@[simp] theorem hostRelease_valid (a : Word) : (hostRelease a s).valid = s.valid := rfl
@[simp] theorem hostRelease_mem (a : Word) : (hostRelease a s).mem = Memory.remove s.mem a.toNat := rfl
@[simp] theorem hostRelease_turns (a : Word) : (hostRelease a s).turns = s.turns := rfl
@[simp] theorem hostRelease_taken (a : Word) : (hostRelease a s).taken = s.taken := rfl
@[simp] theorem hostRelease_draws (a : Word) : (hostRelease a s).draws = s.draws := rfl

end Sys2Proof.Machine
end

