-- ==== Sys2Proof/Laws/Memory.lean ====
section
/-! SUPPORT. The laws of memory: read after write, canonical form, what a read of several bytes answers. -/

namespace Sys2Proof.Machine

/-! ### One byte -/

theorem find_insert_same (m : Memory) (a : Nat) (b : Byte) : Memory.find (Memory.insert m a b) a = some b := by
  induction m with
  | nil => simp [Memory.insert, Memory.find]
  | cons e rest ih =>
    obtain ⟨k, c⟩ := e
    simp only [Memory.insert]
    split
    · simp [Memory.find]
    · split
      · simp [Memory.find]
      · rename_i h₁ h₂
        have : ¬ k = a := fun h => h₂ h.symm
        simp [Memory.find, this, ih]

theorem find_insert_other (m : Memory) (a x : Nat) (b : Byte) (h : x ≠ a) :
    Memory.find (Memory.insert m a b) x = Memory.find m x := by
  induction m with
  | nil => simp [Memory.insert, Memory.find, Ne.symm h]
  | cons e rest ih =>
    obtain ⟨k, c⟩ := e
    simp only [Memory.insert]
    split
    · simp [Memory.find, Ne.symm h]
    · split
      · rename_i h₁ h₂
        subst h₂
        simp [Memory.find, Ne.symm h]
      · simp [Memory.find, ih]

theorem find_remove_same (m : Memory) (a : Nat) : Memory.find (Memory.remove m a) a = none := by
  induction m with
  | nil => rfl
  | cons e rest ih =>
    obtain ⟨k, c⟩ := e
    simp only [Memory.remove]
    split
    · exact ih
    · rename_i h
      simp [Memory.find, h, ih]

theorem find_remove_other (m : Memory) (a x : Nat) (h : x ≠ a) :
    Memory.find (Memory.remove m a) x = Memory.find m x := by
  induction m with
  | nil => rfl
  | cons e rest ih =>
    obtain ⟨k, c⟩ := e
    simp only [Memory.remove]
    split
    · rename_i hk
      subst hk
      simp [Memory.find, Ne.symm h, ih]
    · simp [Memory.find, ih]

/-- Reading an address the host has stored to gives the byte stored (R30). -/
theorem readAt_hostStore_same (a : Word) (b : Byte) (s : State) :
    Memory.readAt (hostStore a b s).mem a = some b :=
  find_insert_same s.mem a.toNat b

/-- A store leaves every other address as it was. -/
theorem readAt_hostStore_other (a x : Word) (b : Byte) (s : State) (h : x ≠ a) :
    Memory.readAt (hostStore a b s).mem x = Memory.readAt s.mem x :=
  find_insert_other s.mem a.toNat x.toNat b fun e => h (BitVec.eq_of_toNat_eq e)

/-- A released address is not readable. -/
theorem readAt_hostRelease_same (a : Word) (s : State) : Memory.readAt (hostRelease a s).mem a = none :=
  find_remove_same s.mem a.toNat

/-- A release leaves every other address as it was. -/
theorem readAt_hostRelease_other (a x : Word) (s : State) (h : x ≠ a) :
    Memory.readAt (hostRelease a s).mem x = Memory.readAt s.mem x :=
  find_remove_other s.mem a.toNat x.toNat fun e => h (BitVec.eq_of_toNat_eq e)

/-! ### Canonical form -/

theorem wfFrom_cons (lo k : Nat) (b : Byte) (rest : Memory) :
    Memory.wfFrom lo ((k, b) :: rest) = true ↔ lo ≤ k ∧ k < 2 ^ 64 ∧ Memory.wfFrom (k + 1) rest = true := by
  simp [Memory.wfFrom, and_assoc]

theorem wfFrom_mono (m : Memory) {lo lo' : Nat} (h : lo' ≤ lo) (hm : Memory.wfFrom lo m = true) :
    Memory.wfFrom lo' m = true := by
  cases m with
  | nil => rfl
  | cons e rest =>
    obtain ⟨k, b⟩ := e
    rw [wfFrom_cons] at hm ⊢
    exact ⟨h.trans hm.1, hm.2⟩

theorem wfFrom_insert (m : Memory) (lo a : Nat) (b : Byte) (hlo : lo ≤ a) (ha : a < 2 ^ 64)
    (hm : Memory.wfFrom lo m = true) : Memory.wfFrom lo (Memory.insert m a b) = true := by
  induction m generalizing lo with
  | nil => exact (wfFrom_cons ..).2 ⟨hlo, ha, rfl⟩
  | cons e rest ih =>
    obtain ⟨k, c⟩ := e
    rw [wfFrom_cons] at hm
    obtain ⟨h₁, h₂, h₃⟩ := hm
    simp only [Memory.insert]
    split
    · rename_i hlt
      exact (wfFrom_cons ..).2 ⟨hlo, ha, (wfFrom_cons ..).2 ⟨hlt, h₂, h₃⟩⟩
    · split
      · rename_i _ heq
        subst heq
        exact (wfFrom_cons ..).2 ⟨hlo, ha, h₃⟩
      · rename_i hnlt hne
        exact (wfFrom_cons ..).2 ⟨h₁, h₂, ih (k + 1) (by omega) h₃⟩

theorem wfFrom_remove (m : Memory) (lo a : Nat) (hm : Memory.wfFrom lo m = true) :
    Memory.wfFrom lo (Memory.remove m a) = true := by
  induction m generalizing lo with
  | nil => rfl
  | cons e rest ih =>
    obtain ⟨k, c⟩ := e
    rw [wfFrom_cons] at hm
    obtain ⟨h₁, h₂, h₃⟩ := hm
    simp only [Memory.remove]
    split
    · exact ih lo (wfFrom_mono rest (by omega) h₃)
    · exact (wfFrom_cons ..).2 ⟨h₁, h₂, ih (k + 1) h₃⟩

/-- A store keeps memory canonical. -/
theorem hostStore_wf (a : Word) (b : Byte) (s : State) (h : s.mem.wf = true) : (hostStore a b s).mem.wf = true :=
  wfFrom_insert s.mem 0 a.toNat b (Nat.zero_le _) a.isLt h

/-- A release keeps memory canonical. -/
theorem hostRelease_wf (a : Word) (s : State) (h : s.mem.wf = true) : (hostRelease a s).mem.wf = true :=
  wfFrom_remove s.mem 0 a.toNat h

/-- Memory is canonical at reset. -/
theorem reset_mem_wf : State.reset.mem.wf = true := rfl

/-! ### The addresses of a read -/

@[simp] theorem addresses_length (a : Word) (n : Nat) : (addresses a n).length = n := by
  induction n generalizing a with
  | zero => rfl
  | succ n ih => simp [addresses, ih]

theorem add_one_add_ofNat (a : Word) (n : Nat) : a + 1#64 + BitVec.ofNat 64 n = a + BitVec.ofNat 64 (n + 1) := by
  rw [BitVec.add_assoc]
  congr 1
  rw [Nat.add_comm, BitVec.ofNat_add]

theorem addresses_append (a : Word) (m n : Nat) :
    addresses a (m + n) = addresses a m ++ addresses (a + BitVec.ofNat 64 m) n := by
  induction m generalizing a with
  | zero => simp [addresses]
  | succ m ih =>
    rw [Nat.succ_add]
    simp only [addresses, List.cons_append, ih, add_one_add_ofNat]

theorem mem_addresses (a x : Word) (n : Nat) : x ∈ addresses a n ↔ ∃ k, k < n ∧ x = a + BitVec.ofNat 64 k := by
  induction n generalizing a with
  | zero => simp [addresses]
  | succ n ih =>
    simp only [addresses, List.mem_cons, ih, add_one_add_ofNat]
    constructor
    · rintro (rfl | ⟨k, hk, rfl⟩)
      · exact ⟨0, by omega, by simp⟩
      · exact ⟨k + 1, by omega, rfl⟩
    · rintro ⟨k, hk, rfl⟩
      cases k with
      | zero => exact .inl (by simp)
      | succ k => exact .inr ⟨k, by omega, rfl⟩

/-! ### Reading several bytes -/

/-- `collect` answers bytes exactly where every address holds the byte answered for it. -/
theorem collect_eq_ok (m : Memory) (as : List Word) (bs : List Byte) :
    Memory.collect m as = .ok bs ↔ as.map (Memory.readAt m) = bs.map some := by
  induction as generalizing bs with
  | nil => cases bs <;> simp [Memory.collect]
  | cons a rest ih =>
    simp only [Memory.collect]
    cases hb : Memory.readAt m a <;> cases hc : Memory.collect m rest with
    | error c =>
      cases bs with
      | nil => simp
      | cons b' bs =>
        have := ih bs
        rw [hc] at this
        simp_all
    | ok bs' =>
      have h' := (ih bs').1 hc
      cases bs with
      | nil => simp
      | cons b' bs =>
        have := ih bs
        rw [hc] at this
        simp_all

/-- `collect` answers an address exactly where it is the lowest unreadable one of the list. -/
theorem collect_error (m : Memory) (as : List Word) (c : Word) (h : Memory.collect m as = .error c) :
    c ∈ as ∧ Memory.readAt m c = none ∧ ∀ x ∈ as, Memory.readAt m x = none → c.toNat ≤ x.toNat := by
  induction as generalizing c with
  | nil => simp [Memory.collect] at h
  | cons a rest ih =>
    simp only [Memory.collect] at h
    cases hb : Memory.readAt m a with
    | some b =>
      cases hc : Memory.collect m rest with
      | ok bs => simp [hb, hc] at h
      | error d =>
        simp only [hb, hc, Except.error.injEq] at h
        subst h
        obtain ⟨h₁, h₂, h₃⟩ := ih d hc
        refine ⟨List.mem_cons_of_mem _ h₁, h₂, fun x hx hn => ?_⟩
        rcases List.mem_cons.1 hx with rfl | hx
        · simp [hb] at hn
        · exact h₃ x hx hn
    | none =>
      cases hc : Memory.collect m rest with
      | ok bs =>
        simp only [hb, hc, Except.error.injEq] at h
        subst h
        refine ⟨List.mem_cons_self, hb, fun x hx hn => ?_⟩
        rcases List.mem_cons.1 hx with rfl | hx
        · exact le_rfl
        · have hmap := (collect_eq_ok m rest bs).1 hc
          have : Memory.readAt m x ∈ bs.map some := hmap ▸ List.mem_map_of_mem hx
          simp [hn] at this
      | error d =>
        simp only [hb, hc, Except.error.injEq] at h
        obtain ⟨h₁, h₂, h₃⟩ := ih d hc
        split at h
        · rename_i hle
          subst h
          refine ⟨List.mem_cons_self, hb, fun x hx hn => ?_⟩
          rcases List.mem_cons.1 hx with rfl | hx
          · exact le_rfl
          · exact hle.trans (h₃ x hx hn)
        · rename_i hle
          subst h
          refine ⟨List.mem_cons_of_mem _ h₁, h₂, fun x hx hn => ?_⟩
          rcases List.mem_cons.1 hx with rfl | hx
          · omega
          · exact h₃ x hx hn

/-- Reading two stretches in turn reads them together. -/
theorem collect_append_ok (m : Memory) (as as' : List Word) (bs : List Byte)
    (h : Memory.collect m (as ++ as') = .ok bs) :
    Memory.collect m as = .ok (bs.take as.length) ∧ Memory.collect m as' = .ok (bs.drop as.length) := by
  rw [collect_eq_ok] at h
  have hlen := congrArg List.length h
  simp only [List.map_append, List.length_append, List.length_map] at hlen h
  constructor
  · rw [collect_eq_ok, List.map_take, ← h]
    exact (List.take_left' (by simp)).symm
  · rw [collect_eq_ok, List.map_drop, ← h]
    exact (List.drop_left' (by simp)).symm

/-- Every byte readable: the read answers (R31). -/
theorem collect_of_readable (m : Memory) (a : Word) (n : Nat) (b : Nat → Byte)
    (h : ∀ k, k < n → Memory.readAt m (a + BitVec.ofNat 64 k) = some (b k)) :
    Memory.collect m (addresses a n) = .ok ((List.range n).map b) := by
  rw [collect_eq_ok]
  induction n with
  | zero => rfl
  | succ n ih =>
    rw [addresses_append, List.range_succ]
    simp only [List.map_append, ih fun k hk => h k (by omega)]
    simp [addresses, h n (by omega)]

end Sys2Proof.Machine
end

