-- ==== Sys2Proof/Laws/Operands.lean ====
section
/-! SUPPORT. The operand forms, the fold step, the complement and the sequencing functions as numbers. -/

namespace Sys2Proof.Machine

theorem laneLow_toNat (d : Word) : (laneLow d).toNat = d.toNat % 2 ^ 32 := by
  have := d.isLt
  simp only [laneLow, Config.laneWidth, BitVec.toNat_setWidth, BitVec.extractLsb'_toNat, Nat.shiftRight_zero]
  omega

theorem laneHigh_toNat (d : Word) : (laneHigh d).toNat = d.toNat / 2 ^ 32 := by
  have := d.isLt
  simp only [laneHigh, Config.laneWidth, BitVec.toNat_setWidth, BitVec.extractLsb'_toNat, Nat.shiftRight_eq_div_pow]
  omega

theorem halfOperand_toNat (d : Word) : (halfOperand d).toNat = d.toNat % 2 ^ 16 := by
  have := d.isLt
  simp only [halfOperand, BitVec.toNat_setWidth, BitVec.extractLsb'_toNat, Nat.shiftRight_zero]
  omega

theorem oddOperand_toNat (d : Word) : (oddOperand d).toNat = d.toNat % 2 ^ 8 := by
  have := d.isLt
  simp only [oddOperand, BitVec.toNat_setWidth, BitVec.extractLsb'_toNat, Nat.shiftRight_zero]
  omega

/-- The fold step of R90 as integers: it cannot wrap. -/
theorem foldWord_toNat (v : Word) : (foldWord v).toNat = v.toNat % 2 ^ 16 + v.toNat / 2 ^ 16 := by
  have h := v.isLt
  have hand : v.toNat &&& 65535 = v.toNat % 2 ^ 16 := Nat.and_two_pow_sub_one_eq_mod v.toNat 16
  simp only [foldWord, Config.foldMask, Config.foldWidth, BitVec.toNat_add, BitVec.toNat_and,
    BitVec.toNat_ushiftRight, Nat.shiftRight_eq_div_pow]
  rw [show (0xFFFF#64).toNat = 65535 from rfl, hand]
  omega

/-- The output stage as numbers (R95): `0xFFFF - sum[15:0]`. -/
theorem complementLow_toNat (v : Word) : (complementLow v).toNat = 0xFFFF - v.toNat % 2 ^ 16 := by
  have h := v.isLt
  simp only [complementLow, BitVec.extractLsb'_toNat, BitVec.toNat_not, Nat.shiftRight_zero]
  omega

theorem seqLane_eq (r : Word) : seqLane r = if 8 ≤ r.toNat then 0b001#3 else 0b010#3 := rfl

/-- The folder's test `s[63:16] != 0` is `s >= 2^16` (R67). -/
theorem seqFold_eq (v : Word) : seqFold v = if 2 ^ 16 ≤ v.toNat then 0b101#3 else 0b110#3 := by
  have hlt := v.isLt
  have key : v.extractLsb' 16 48 = 0#48 ↔ ¬ 2 ^ 16 ≤ v.toNat := by
    rw [← BitVec.toNat_inj, BitVec.extractLsb'_toNat, Nat.shiftRight_eq_div_pow]
    simp only [BitVec.toNat_ofNat]
    omega
  unfold seqFold
  by_cases h : 2 ^ 16 ≤ v.toNat
  · rw [if_pos (fun e => key.1 e h), if_pos h]
  · rw [if_neg (fun e => e (key.2 h)), if_neg h]

theorem seqTail_eq (r v : Word) : seqTail r v =
    if 2 ≤ r.toNat then 0b011#3 else if r.toNat = 1 then 0b100#3 else
      if 2 ^ 16 ≤ v.toNat then 0b101#3 else 0b110#3 := by
  rw [seqTail, seqFold_eq]

/-- Where the subtraction stays at or above zero it is exact, and no free value is used (R14). -/
theorem remAfter_toNat {n : Nat} {s : State} (h : n ≤ s.rem.toNat) : (remAfter n s).toNat = s.rem.toNat - n := by
  have hlt := s.rem.isLt
  rw [remAfter, if_pos h, BitVec.toNat_sub, BitVec.toNat_ofNat]
  omega

theorem drawsAfter_of_le {n : Nat} {s : State} (h : n ≤ s.rem.toNat) : drawsAfter n s = s.draws := if_pos h

end Sys2Proof.Machine
end

