-- ==== Sys2Proof/Laws/Effects.lean ====
section
/-! SUPPORT. What the register writes of the three reading micro-operations leave in each field of State. -/

namespace Sys2Proof.Machine

variable (d : Word) (s : State)

@[simp] theorem laneEffect_sum : (laneEffect d s).sum = s.sum + laneLow d := rfl
@[simp] theorem laneEffect_sum1 : (laneEffect d s).sum1 = s.sum1 + laneHigh d := rfl
@[simp] theorem laneEffect_cur : (laneEffect d s).cur = s.cur + BitVec.ofNat 64 8 := rfl
@[simp] theorem laneEffect_rem : (laneEffect d s).rem = remAfter 8 s := rfl
@[simp] theorem laneEffect_uop : (laneEffect d s).uop = seqLane (remAfter 8 s) := rfl
@[simp] theorem laneEffect_result : (laneEffect d s).result = s.result := rfl
@[simp] theorem laneEffect_valid : (laneEffect d s).valid = s.valid := rfl
@[simp] theorem laneEffect_mem : (laneEffect d s).mem = s.mem := rfl
@[simp] theorem laneEffect_turns : (laneEffect d s).turns = s.turns := rfl
@[simp] theorem laneEffect_taken : (laneEffect d s).taken = s.taken := rfl
@[simp] theorem laneEffect_draws : (laneEffect d s).draws = drawsAfter 8 s := rfl

@[simp] theorem halfEffect_sum : (halfEffect d s).sum = s.sum + halfOperand d := rfl
@[simp] theorem halfEffect_sum1 : (halfEffect d s).sum1 = s.sum1 := rfl
@[simp] theorem halfEffect_cur : (halfEffect d s).cur = s.cur + BitVec.ofNat 64 2 := rfl
@[simp] theorem halfEffect_rem : (halfEffect d s).rem = remAfter 2 s := rfl
@[simp] theorem halfEffect_uop : (halfEffect d s).uop = seqTail (remAfter 2 s) (s.sum + halfOperand d) := rfl
@[simp] theorem halfEffect_result : (halfEffect d s).result = s.result := rfl
@[simp] theorem halfEffect_valid : (halfEffect d s).valid = s.valid := rfl
@[simp] theorem halfEffect_mem : (halfEffect d s).mem = s.mem := rfl
@[simp] theorem halfEffect_turns : (halfEffect d s).turns = s.turns := rfl
@[simp] theorem halfEffect_taken : (halfEffect d s).taken = s.taken := rfl
@[simp] theorem halfEffect_draws : (halfEffect d s).draws = drawsAfter 2 s := rfl

@[simp] theorem oddEffect_sum : (oddEffect d s).sum = s.sum + oddOperand d := rfl
@[simp] theorem oddEffect_sum1 : (oddEffect d s).sum1 = s.sum1 := rfl
@[simp] theorem oddEffect_cur : (oddEffect d s).cur = s.cur + BitVec.ofNat 64 1 := rfl
@[simp] theorem oddEffect_rem : (oddEffect d s).rem = remAfter 1 s := rfl
@[simp] theorem oddEffect_uop : (oddEffect d s).uop = seqFold (s.sum + oddOperand d) := rfl
@[simp] theorem oddEffect_result : (oddEffect d s).result = s.result := rfl
@[simp] theorem oddEffect_valid : (oddEffect d s).valid = s.valid := rfl
@[simp] theorem oddEffect_mem : (oddEffect d s).mem = s.mem := rfl
@[simp] theorem oddEffect_turns : (oddEffect d s).turns = s.turns := rfl
@[simp] theorem oddEffect_taken : (oddEffect d s).taken = s.taken := rfl
@[simp] theorem oddEffect_draws : (oddEffect d s).draws = drawsAfter 1 s := rfl

end Sys2Proof.Machine
end

