-- ==== Sys2Proof/Laws/Exec.lean ====
section
/-! SUPPORT. Everything each shared operation, each instruction and a step can do, said once. -/

namespace Sys2Proof.Machine

/-- `withRead` goes on exactly where the port answers, and otherwise stops with the port's address. -/
theorem withRead_next {size : MemSize} {s t : State} {k : Word → State} (h : withRead size s k = .next t) :
    ∃ d, respond s.mem (requestOf size s) = .ok d ∧ t = k d := by
  unfold withRead at h
  split at h
  · rename_i d hd
    exact ⟨d, hd, by cases h; rfl⟩
  · cases h

theorem withRead_fault {size : MemSize} {s : State} {k : Word → State} {f : Fault}
    (h : withRead size s k = .fault f) :
    ∃ a, respond s.mem (requestOf size s) = .error a ∧ f = .unreadableByte a := by
  unfold withRead at h
  split at h
  · cases h
  · rename_i a ha
    exact ⟨a, ha, by cases h; rfl⟩

theorem withRead_not_refused {size : MemSize} {s : State} {k : Word → State} {r : Refusal} :
    withRead size s k ≠ .refused r := by
  unfold withRead
  split <;> simp

theorem withRead_of_ok {size : MemSize} {s : State} {k : Word → State} {d : Word}
    (h : respond s.mem (requestOf size s) = .ok d) : withRead size s k = .next (k d) := by
  simp [withRead, h]

theorem withRead_of_error {size : MemSize} {s : State} {k : Word → State} {a : Word}
    (h : respond s.mem (requestOf size s) = .error a) : withRead size s k = .fault (.unreadableByte a) := by
  simp [withRead, h]

/-- The port answers with the little-endian value of the bytes collected. -/
theorem respond_of_collect {m : Memory} {a : Word} {size : MemSize} {bs : List Byte}
    (h : Memory.collect m (addresses a size.bytes) = .ok bs) :
    respond m ⟨size, a⟩ = .ok (BitVec.ofNat 64 (leNat bs)) := by
  simp [respond, h]

/-- The port's error is the lowest unreadable address of the access. -/
theorem respond_error {m : Memory} {a c : Word} {size : MemSize} (h : respond m ⟨size, a⟩ = .error c) :
    Memory.collect m (addresses a size.bytes) = .error c := by
  unfold respond at h
  split at h
  · cases h
  · rename_i e
    simp only [Except.error.injEq] at h
    subst h
    exact e

/-- The next state each instruction can answer. -/
def NextOf (i : Instr) (s t : State) : Prop :=
  match i with
  | .start data len =>
    (ready s = true ∧ t = goTo (seqLane len) (beginCall data len s)) ∨ (ready s = false ∧ t = s)
  | .idle => t = s
  | .lane8 => ∃ d, respond s.mem (requestOf .eight s) = .ok d ∧ t = laneEffect d s
  | .combine => t = goTo (seqTail s.rem (s.sum + s.sum1)) (addToSum s.sum1 s)
  | .half2 => ∃ d, respond s.mem (requestOf .two s) = .ok d ∧ t = halfEffect d s
  | .odd1 => ∃ d, respond s.mem (requestOf .one s) = .ok d ∧ t = oddEffect d s
  | .fold => t = goTo (seqFold (foldWord s.sum)) (setSum (foldWord s.sum) s)
  | .cmpl => t = goTo 0b000#3 (deliver (complementLow s.sum) s)
  | .reserved7 => False

/-- Everything an instruction's next state can be, said once. -/
theorem exec_next {i : Instr} {s t : State} (h : exec i s = .next t) : NextOf i s t := by
  cases i with
  | start data len =>
    simp only [exec, execStart] at h
    split at h
    · exact .inl ⟨‹_›, by cases h; rfl⟩
    · exact .inr ⟨by simpa using ‹¬ ready s = true›, by cases h; rfl⟩
  | idle => cases h; rfl
  | lane8 => exact withRead_next h
  | combine => cases h; rfl
  | half2 => exact withRead_next h
  | odd1 => exact withRead_next h
  | fold => cases h; rfl
  | cmpl => cases h; rfl
  | reserved7 => cases h

/-- No instruction writes memory, the turns to come or what the host has taken. -/
theorem exec_keeps {i : Instr} {s t : State} (h : exec i s = .next t) :
    t.mem = s.mem ∧ t.turns = s.turns ∧ t.taken = s.taken := by
  have := exec_next h
  cases i with
  | start data len => rcases this with ⟨_, rfl⟩ | ⟨_, rfl⟩ <;> simp
  | lane8 => obtain ⟨d, _, rfl⟩ := this; simp
  | half2 => obtain ⟨d, _, rfl⟩ := this; simp
  | odd1 => obtain ⟨d, _, rfl⟩ := this; simp
  | reserved7 => exact this.elim
  | idle => simp only [NextOf] at this; subst this; simp
  | combine => simp only [NextOf] at this; subst this; simp
  | fold => simp only [NextOf] at this; subst this; simp
  | cmpl => simp only [NextOf] at this; subst this; simp

/-- The host's read goes on exactly while `valid = 1` (R69). -/
theorem hostRead_cases (s : State) :
    (s.valid = true ∧ hostRead s = .next (keepTaken s.result s)) ∨
      (s.valid = false ∧ hostRead s = .refused .resultNotValid) := by
  cases h : s.valid <;> simp [hostRead, resultPort, h]

/-- Who moves in a step, and on what state (R68, R103). -/
theorem step_cases (s : State) :
    (s.turns = [] ∧ step s = exec (decodeUop s.uop) s) ∨
    (∃ rest, s.turns = .sequencer :: rest ∧ step s = exec (decodeUop s.uop) (setTurns rest s)) ∨
    (∃ pins rest, s.turns = .host pins :: rest ∧ step s = hostTurn pins (setTurns rest s)) := by
  cases h : s.turns with
  | nil => exact .inl ⟨rfl, by simp [step, takeTurn, h, sequencerTurn, runWord, decode]⟩
  | cons turn rest =>
    cases turn with
    | sequencer =>
      exact .inr (.inl ⟨rest, rfl, by simp [step, takeTurn, h, sequencerTurn, runWord, decode]⟩)
    | host pins => exact .inr (.inr ⟨pins, rest, rfl, by simp [step, takeTurn, h]⟩)

/-- What a command word does: `START` where bit 128 is set, nothing otherwise (R52, R57). -/
theorem runWord_command (w : CommandWord) (s : State) :
    runWord (.h w) s =
      if startBit w then exec (.start (w.extractLsb' 64 64) (w.extractLsb' 0 64)) s else .next s := by
  unfold runWord decode decodeCommand
  cases h : startBit w <;> simp only [h, if_true, Bool.false_eq_true, if_false]

/-- Everything a host turn can do (R103): reset; or a refused read; or, with the read's value kept if there is one,
an accepted `START`, or nothing. -/
theorem hostTurn_cases (pins : HostPins) (s : State) :
    (pins.reset = true ∧ hostTurn pins s = .next (resetBlock s)) ∨
    (pins.reset = false ∧ pins.read = true ∧ s.valid = false ∧ hostTurn pins s = .refused .resultNotValid) ∨
    (pins.reset = false ∧ ∃ u, (u = s ∧ pins.read = false ∨ u = keepTaken s.result s ∧ pins.read = true ∧ s.valid = true) ∧
      ((startBit pins.command = true ∧ s.uop = 0b000#3 ∧
          hostTurn pins s = .next (goTo (seqLane (pins.command.extractLsb' 0 64))
            (beginCall (pins.command.extractLsb' 64 64) (pins.command.extractLsb' 0 64) u))) ∨
        ((startBit pins.command = false ∨ s.uop ≠ 0b000#3) ∧ hostTurn pins s = .next u))) := by
  have run : ∀ u : State, u.uop = s.uop →
      ((startBit pins.command = true ∧ s.uop = 0b000#3 ∧
          runWord (.h pins.command) u = .next (goTo (seqLane (pins.command.extractLsb' 0 64))
            (beginCall (pins.command.extractLsb' 64 64) (pins.command.extractLsb' 0 64) u))) ∨
        ((startBit pins.command = false ∨ s.uop ≠ 0b000#3) ∧ runWord (.h pins.command) u = .next u)) := by
    intro u hu
    rw [runWord_command]
    cases hb : startBit pins.command with
    | false => exact .inr ⟨.inl rfl, by simp⟩
    | true =>
      by_cases hz : s.uop = 0b000#3
      · exact .inl ⟨rfl, hz, by simp [exec, execStart, ready, hu, hz]⟩
      · exact .inr ⟨.inr hz, by simp [exec, execStart, ready, hu, hz]⟩
  cases hr : pins.reset with
  | true => exact .inl ⟨rfl, by simp [hostTurn, hr]⟩
  | false =>
    cases hd : pins.read with
    | false =>
      refine .inr (.inr ⟨rfl, s, .inl ⟨rfl, rfl⟩, ?_⟩)
      have : hostTurn pins s = runWord (.h pins.command) s := by simp [hostTurn, hr, hd]
      rw [this]
      exact run s rfl
    | true =>
      rcases hostRead_cases s with ⟨hv, hread⟩ | ⟨hv, hread⟩
      · refine .inr (.inr ⟨rfl, keepTaken s.result s, .inr ⟨rfl, rfl, hv⟩, ?_⟩)
        have : hostTurn pins s = runWord (.h pins.command) (keepTaken s.result s) := by
          simp [hostTurn, hr, hd, hread]
        rw [this]
        exact run (keepTaken s.result s) rfl
      · exact .inr (.inl ⟨rfl, rfl, hv, by simp [hostTurn, hr, hd, hread]⟩)

end Sys2Proof.Machine
end

