-- ==== Sys2Proof/Laws/Lanes.lean ====
section
/-! SUPPORT. The lane sums over whole chunks: what they add up to, and how they grow with a stretch of chunks. -/

namespace Sys2Proof.Machine

@[simp] theorem lowLanes_nil : lowLanes [] = 0 := rfl

@[simp] theorem highLanes_nil : highLanes [] = 0 := rfl

/-- A list of whole chunks is empty or begins with one. -/
theorem chunks_cases (b : List Byte) (h : b.length % 8 = 0) :
    b = [] ∨ ∃ a0 a1 a2 a3 a4 a5 a6 a7 rest,
      b = a0 :: a1 :: a2 :: a3 :: a4 :: a5 :: a6 :: a7 :: rest ∧ rest.length % 8 = 0 := by
  match b, h with
  | [], _ => exact .inl rfl
  | a0 :: a1 :: a2 :: a3 :: a4 :: a5 :: a6 :: a7 :: rest, h =>
    exact .inr ⟨a0, a1, a2, a3, a4, a5, a6, a7, rest, rfl, by simp only [List.length_cons] at h; omega⟩

/-- The lane sums and the total of R8 over whole chunks, followed by anything. -/
theorem lanes_append (b : List Byte) (h : b.length % 8 = 0) (c : List Byte) :
    lowLanes (b ++ c) = lowLanes b + lowLanes c ∧ highLanes (b ++ c) = highLanes b + highLanes c ∧
      laneTotal (b ++ c) = lowLanes b + highLanes b + laneTotal c := by
  induction hn : b.length using Nat.strong_induction_on generalizing b with
  | _ n ih =>
    subst hn
    rcases chunks_cases b h with rfl | ⟨a0, a1, a2, a3, a4, a5, a6, a7, rest, rfl, hr⟩
    · simp
    · obtain ⟨h₁, h₂, h₃⟩ := ih rest.length (by simp only [List.length_cons]; omega) rest hr rfl
      simp only [List.cons_append, lowLanes, highLanes, laneTotal, h₁, h₂, h₃]
      omega

end Sys2Proof.Machine
end

