-- ==== Sys2Proof/Laws/PerInstr.lean ====
section
/-! SUPPORT. For every instruction: its word agrees with its row of the opcode table, `word & mask = match`. -/

/-- The word of an instruction lies in its row of spec/opcode_table.json. -/
def Sys2Proof.Laws.TableRow.Statement (i : Sys2Proof.Instr) : Prop :=
  (Sys2Proof.encode i).toNat &&& i.tableMask = i.tableMatch

theorem Sys2Proof.Laws.TableRow.start (data len : Sys2Proof.Word) :
    Sys2Proof.Laws.TableRow.Statement (.start data len) := by
  have h : ((1#1 ++ data ++ len : BitVec 129) &&& BitVec.ofNat 129 (2 ^ 128)) = BitVec.ofNat 129 (2 ^ 128) := by
    apply BitVec.eq_of_getLsbD_eq
    intro k hk
    simp only [BitVec.getLsbD_and, BitVec.getLsbD_append, BitVec.getLsbD_ofNat, Nat.testBit_two_pow]
    by_cases hk' : k = 128
    · subst hk'; simp
    · simp [Ne.symm hk']
  exact congrArg BitVec.toNat h

theorem Sys2Proof.Laws.TableRow.idle : Sys2Proof.Laws.TableRow.Statement .idle := by
  unfold Sys2Proof.Laws.TableRow.Statement; decide

theorem Sys2Proof.Laws.TableRow.lane8 : Sys2Proof.Laws.TableRow.Statement .lane8 := by
  unfold Sys2Proof.Laws.TableRow.Statement; decide

theorem Sys2Proof.Laws.TableRow.combine : Sys2Proof.Laws.TableRow.Statement .combine := by
  unfold Sys2Proof.Laws.TableRow.Statement; decide

theorem Sys2Proof.Laws.TableRow.half2 : Sys2Proof.Laws.TableRow.Statement .half2 := by
  unfold Sys2Proof.Laws.TableRow.Statement; decide

theorem Sys2Proof.Laws.TableRow.odd1 : Sys2Proof.Laws.TableRow.Statement .odd1 := by
  unfold Sys2Proof.Laws.TableRow.Statement; decide

theorem Sys2Proof.Laws.TableRow.fold : Sys2Proof.Laws.TableRow.Statement .fold := by
  unfold Sys2Proof.Laws.TableRow.Statement; decide

theorem Sys2Proof.Laws.TableRow.cmpl : Sys2Proof.Laws.TableRow.Statement .cmpl := by
  unfold Sys2Proof.Laws.TableRow.Statement; decide

theorem Sys2Proof.Laws.TableRow.reserved7 : Sys2Proof.Laws.TableRow.Statement .reserved7 := by
  unfold Sys2Proof.Laws.TableRow.Statement; decide
end

