-- ==== Sys2Proof/Tests/Slice0.lean ====
section
/-! SUPPORT. The model's own tests. Expected results are those of spec/95_test_vectors.md and the tables of
spec/30_encoding.md, cited by id. The second half shows, for every statement with hypotheses, data that meet them. -/

namespace Sys2Proof.Tests

open Sys2Proof Sys2Proof.Machine

/-! ### Helpers -/

/-- The state an outcome goes on to. -/
def stateAfter : Host.Outcome State Fault Refusal → Option State
  | .next t => some t
  | .fault _ => none
  | .refused _ => none

theorem next_of_stateAfter {o : Host.Outcome State Fault Refusal} {t : State} (h : stateAfter o = some t) :
    o = .next t := by
  cases o <;> simp_all [stateAfter]

/-- The fault an outcome stops with. -/
def faultOf : Host.Outcome State Fault Refusal → Option Fault
  | .next _ => none
  | .fault f => some f
  | .refused _ => none

/-- The refusal an outcome stops with. -/
def refusalOf : Host.Outcome State Fault Refusal → Option Refusal
  | .next _ => none
  | .fault _ => none
  | .refused r => some r

/-- Bytes placed in rising order from an address on. -/
def placed : Word → List Byte → State → State
  | _, [], s => s
  | a, b :: bs, s => hostStore a b (placed (a + 1#64) bs s)

/-- A state in the middle of a call, with bytes at its cursor. -/
def during (uop : Code) (sum sum1 cur rem : Word) (bytes : List Byte) : State :=
  placed cur bytes { State.reset with uop := uop, sum := sum, sum1 := sum1, cur := cur, rem := rem }

/-- A state after a call, with a result. -/
def finished (r : Digest) : State :=
  { State.reset with valid := true, result := r }

/-- A state with turns to come. -/
def withTurns (ts : List Turn) (s : State) : State :=
  { s with turns := ts }

/-- A host turn that only reads; the command word is no command. -/
def readTurn : Turn :=
  .host ⟨false, true, 0#129⟩

/-! ### Well-formedness and decoding -/

theorem test_reserved7_is_ill_formed : Instr.wellFormed .reserved7 = false := by decide

theorem test_start_takes_any_operands :
    (Instr.start 0#64 0#64).wellFormed = true ∧ (Instr.start (-1#64) (-1#64)).wellFormed = true := by decide

theorem test_strobe_clear_is_no_command :
    decode (.h 0x0FFFFFFFFFFFFFFFFFFFFFFFFFFFFFFFF#129) = .error .noCommand := by decide

theorem test_two_bytes_are_no_uop_word : decodeBytes .uop [1#8, 0#8] = .error .wrongLength := rfl

theorem test_bit_above_uop_is_refused : decodeBytes .uop [0b00001001#8] = .error .unusedBitsSet := rfl

theorem test_bit_above_command_is_refused :
    decodeBytes .command (List.replicate 16 0#8 ++ [0b00000011#8]) = .error .unusedBitsSet := rfl

theorem test_size_code_10_is_no_request : MemSize.ofCode 0b10#2 = none := rfl

/-- Program 1's format H word: `1 : 0000000000001000 : 000000000000000B`. -/
theorem test_decode_start :
    decode (.h (1#1 ++ 0x0000000000001000#64 ++ 0x000000000000000B#64)) = .ok (.start 0x1000#64 11#64) := by decide

/-- The same word as its 17 bytes, lowest first. -/
theorem test_decode_start_bytes :
    decodeBytes .command ([0x0B#8, 0#8, 0#8, 0#8, 0#8, 0#8, 0#8, 0#8] ++ [0#8, 0x10#8, 0#8, 0#8, 0#8, 0#8, 0#8, 0#8]
      ++ [1#8]) = .ok (.start 0x1000#64 11#64) := by decide

/-- R51's table, bit by bit. -/
theorem test_decode_uop_codes :
    decode (.u 0b000#3) = .ok .idle ∧ decode (.u 0b001#3) = .ok .lane8 ∧ decode (.u 0b010#3) = .ok .combine ∧
    decode (.u 0b011#3) = .ok .half2 ∧ decode (.u 0b100#3) = .ok .odd1 ∧ decode (.u 0b101#3) = .ok .fold ∧
    decode (.u 0b110#3) = .ok .cmpl ∧ decode (.u 0b111#3) = .ok .reserved7 :=
  ⟨rfl, rfl, rfl, rfl, rfl, rfl, rfl, rfl⟩

/-- Program 1's format M words: `11:0x1000`, `01:0x1008`, `00:0x100A`. -/
theorem test_request_words :
    MemRequest.encode ⟨.eight, 0x1000#64⟩ = 0b11#2 ++ 0x1000#64 ∧
    MemRequest.encode ⟨.two, 0x1008#64⟩ = 0b01#2 ++ 0x1008#64 ∧
    MemRequest.encode ⟨.one, 0x100A#64⟩ = 0b00#2 ++ 0x100A#64 := by decide

/-! ### One step of each instruction -/

/-- H2. -/
theorem test_start_accepted :
    stateAfter (exec (.start 0x1000#64 11#64) State.reset)
      = some { State.reset with cur := 0x1000#64, rem := 11#64, uop := 0b001#3 } := by decide

/-- H6: busy, the state does not change. -/
theorem test_start_while_busy :
    stateAfter (exec (.start 0x9000#64 1#64) (during 1#3 5#64 6#64 0x1000#64 16#64 []))
      = some (during 1#3 5#64 6#64 0x1000#64 16#64 []) := by decide

/-- R68: the sequencer is held in `IDLE`. -/
theorem test_idle_holds : stateAfter (step (finished 0x1234#16)) = some (finished 0x1234#16) := by decide

/-- L3: the carry out of bit 31 is kept in bit 32. -/
theorem test_lane8_carry_kept :
    (stateAfter (exec .lane8 (during 1#3 0xFFFFFFFF#64 0xFFFFFFFF#64 0x1000#64 8#64 (List.replicate 8 0xFF#8)))).map
      (fun t => (t.sum, t.sum1, t.cur, t.rem, t.uop))
      = some (0x1FFFFFFFE#64, 0x1FFFFFFFE#64, 0x1008#64, 0#64, 2#3) := by decide

/-- L8: the eighth byte is not readable. -/
theorem test_lane8_last_byte_unreadable :
    faultOf (exec .lane8 (during 1#3 0#64 0#64 0x1000#64 8#64 (List.replicate 7 0#8)))
      = some (.unreadableByte 0x1007#64) := by decide

/-- C8. -/
theorem test_combine_then_tail :
    (stateAfter (exec .combine (during 2#3 0x1C000045#64 0xCDAB#64 0x1008#64 3#64 []))).map
      (fun t => (t.sum, t.sum1, t.rem, t.uop)) = some (0x1C00CDF0#64, 0xCDAB#64, 3#64, 3#3) := by decide

/-- C9: the sum wraps. -/
theorem test_combine_wraps :
    (stateAfter (exec .combine (during 2#3 0x800000007FFFFFFF#64 0x800000007FFFFFFF#64 0#64 0#64 []))).map
      (fun t => (t.sum, t.uop)) = some (0x00000000FFFFFFFE#64, 5#3) := by decide

/-- T6 and R33: the second byte is the high byte; the address is odd. -/
theorem test_half2_byte_order :
    (stateAfter (exec .half2 (during 3#3 0#64 0#64 0x1001#64 2#64 [0x00#8, 0x01#8]))).map
      (fun t => (t.sum, t.cur, t.rem, t.uop)) = some (0x0100#64, 0x1003#64, 0#64, 6#3) := by decide

/-- T7: the second byte is not readable. -/
theorem test_half2_second_unreadable :
    faultOf (exec .half2 (during 3#3 0#64 0#64 0x1000#64 2#64 [1#8])) = some (.unreadableByte 0x1001#64) := by decide

/-- T10, with `cur+1` not readable as in T13. -/
theorem test_odd1_not_shifted :
    (stateAfter (exec .odd1 (during 4#3 0xFFFF#64 0#64 0x1000#64 1#64 [0xFF#8]))).map
      (fun t => (t.sum, t.cur, t.rem, t.uop)) = some (0x100FE#64, 0x1001#64, 0#64, 5#3) := by decide

/-- F3: one fold of `0x1FFFF` is not below 2^16. -/
theorem test_fold_again :
    (stateAfter (exec .fold (during 5#3 0x1FFFF#64 0#64 0#64 0#64 []))).map (fun t => (t.sum, t.uop))
      = some (0x10000#64, 5#3) := by decide

/-- F8: all 48 upper bits come down at once. -/
theorem test_fold_all_ones :
    (stateAfter (exec .fold (during 5#3 0xFFFFFFFFFFFFFFFF#64 0#64 0#64 0#64 []))).map (fun t => (t.sum, t.uop))
      = some (0x100000000FFFE#64, 5#3) := by decide

/-- O3: bitwise, not the arithmetic negation. -/
theorem test_cmpl_is_bitwise :
    (stateAfter (exec .cmpl (during 6#3 0x0001#64 0#64 0#64 0#64 []))).map (fun t => (t.result, t.valid, t.uop))
      = some (0xFFFE#16, true, 0#3) := by decide

/-- H13. -/
theorem test_reserved7_refused :
    refusalOf (step (during 7#3 0#64 0#64 0#64 0#64 [])) = some .reservedUop := by decide

/-- H1. -/
theorem test_read_after_reset_refused :
    refusalOf (step (withTurns [readTurn] State.reset)) = some .resultNotValid := by decide

/-- H8, the first of the two reads. -/
theorem test_read_returns_result :
    (stateAfter (step (withTurns [readTurn] (finished 0xEFF3#16)))).map (fun t => (t.taken, t.result, t.valid))
      = some ([0xEFF3#16], 0xEFF3#16, true) := by decide

/-- H10. -/
theorem test_reset_abandons_call :
    (stateAfter (step (withTurns [.host ⟨true, true, 0#129⟩] (during 3#3 0#64 0#64 0#64 2#64 [])))).map
      (fun t => (t.uop, t.valid)) = some (0#3, false) := by decide

/-- S4, and S5 as 90_conflicts.md C1 corrects it: the function of R65. -/
theorem test_digest_examples :
    digestOf [0x01#8, 0x02#8] = 0xFDFE#16 ∧
    digestOf [0x00#8, 0x01#8, 0x02#8, 0x03#8, 0x04#8, 0x05#8, 0x06#8, 0x07#8] = 0xEFF3#16 := by decide

/-! ### Data that meet the hypotheses of each statement -/

/-- Eight readable bytes at `0x1000`, 8 remaining. -/
def laneState : State :=
  during 1#3 0#64 0#64 0x1000#64 8#64 [0#8, 1#8, 2#8, 3#8, 4#8, 5#8, 6#8, 7#8]

theorem test_meets_FormatUCodes :
    decode (.u 0b101#3) = .ok .fold ∧ memRequest laneState = some ⟨.eight, 0x1000#64⟩ := ⟨rfl, rfl⟩

theorem test_meets_FormatHFields_command :
    (0x100000000000000000000000000000000#129 &&& BitVec.ofNat 129 (2 ^ 128)) = BitVec.ofNat 129 (2 ^ 128) := by decide

theorem test_meets_FormatHFields_no_command :
    (0x0FFFFFFFFFFFFFFFFFFFFFFFFFFFFFFFF#129 &&& BitVec.ofNat 129 (2 ^ 128)) ≠ BitVec.ofNat 129 (2 ^ 128) := by decide

theorem test_meets_EncodeDecodeAgree :
    decode (.u 0b111#3) = .ok .reserved7 ∧
    decode (.h 0x1FFFFFFFFFFFFFFFF0000000000000000#129) = .ok (.start 0xFFFFFFFFFFFFFFFF#64 0#64) := by decide

theorem test_meets_FormatMReadsBack :
    (0x20000000000000000#66).toNat / 2 ^ 64 = 2 ∧ (0x2FFFFFFFFFFFFFFFF#66).toNat / 2 ^ 64 = 2 ∧
    MemRequest.decode 0x30000000000000000#66 = some ⟨.eight, 0#64⟩ := by decide

theorem test_meets_RequestsIssued :
    (during 1#3 0#64 0#64 7#64 8#64 []).uop = 1#3 ∧ (during 3#3 0#64 0#64 7#64 2#64 []).uop = 3#3 ∧
    (during 4#3 0#64 0#64 7#64 1#64 []).uop = 4#3 ∧
    (State.reset.uop ≠ 1#3 ∧ State.reset.uop ≠ 3#3 ∧ State.reset.uop ≠ 4#3) ∧
    memRequest (during 4#3 0#64 0#64 7#64 1#64 []) = some ⟨.one, 7#64⟩ := by decide

theorem test_meets_ReservedEncodings :
    (during 7#3 0#64 0#64 0#64 0#64 []).uop = 7#3 ∧
    (∃ t, step State.reset = .next t ∧ State.reset.uop ≠ 7#3) ∧
    (∃ r, memRequest laneState = some r) ∧ startBit 0#129 = false ∧
    (startBit 0x100000000000000000000000000000000#129 = true ∧ ready laneState = false) :=
  ⟨by decide, ⟨_, rfl, by decide⟩, ⟨_, rfl⟩, by decide, by decide, by decide⟩

theorem test_meets_ResetPinWins : (HostPins.mk true true 0#129).reset = true := by decide

/-- With a result to read, and with none. -/
theorem test_meets_ResetOverridesRead :
    (HostPins.mk true true 0#129).reset = true ∧
    HostNext (withTurns [.host ⟨true, true, 0#129⟩] (finished 1#16)) ⟨true, true, 0#129⟩ [] ∧
    HostNext (withTurns [.host ⟨true, true, 0#129⟩] State.reset) ⟨true, true, 0#129⟩ [] := ⟨rfl, rfl, rfl⟩

theorem test_meets_StartBeginsCall : State.reset.uop = 0b000#3 ∧ laneState.uop ≠ 0b000#3 := by decide

theorem test_meets_CommandWhileBusyIgnored :
    ready laneState = false ∧
    (ready State.reset = true ∧ startBit 0x100000000000000000000000000000000#129 = true) := by decide

theorem test_meets_ReadReturnsResult :
    (startBit 0#129 = false ∧ (withTurns [readTurn, readTurn] (finished 0xEFF3#16)).valid = true ∧
      (withTurns [readTurn, readTurn] (finished 0xEFF3#16)).turns
        = List.replicate 2 (.host ⟨false, true, 0#129⟩) ++ []) ∧
    ((withTurns [readTurn] State.reset).valid = false ∧
      HostNext (withTurns [readTurn] State.reset) ⟨false, true, 0#129⟩ []) :=
  ⟨by decide, by decide, rfl⟩

theorem test_meets_ResultZeroExtended : (finished 0x8000#16).valid = true ∧ 16 ≤ 16 := by decide

theorem test_meets_ReadThenStart : (finished 0xEFF3#16).valid = true ∧ (finished 0xEFF3#16).uop = 0b000#3 := by decide

/-- Eight bytes that lie across the top of the address space (R31). -/
theorem test_meets_MemReadLittleEndian_readable :
    ∀ k, k < MemSize.eight.bytes →
      Memory.readAt (placed 0xFFFFFFFFFFFFFFFC#64 [1#8, 2#8, 3#8, 4#8, 5#8, 6#8, 7#8, 8#8] State.reset).mem
        (0xFFFFFFFFFFFFFFFC#64 + BitVec.ofNat 64 k) = some (BitVec.ofNat 8 (k + 1)) := by decide

theorem test_meets_MemReadLittleEndian_unreadable :
    ∃ k, k < MemSize.two.bytes ∧
      Memory.readAt (placed 0x1000#64 [1#8] State.reset).mem (0x1000#64 + BitVec.ofNat 64 k) = none :=
  ⟨1, by decide, by decide⟩

/-- The access wraps: of the unreadable addresses `0xFFFFFFFFFFFFFFFF` and 0, the lowest is 0 (log entry 7). -/
theorem test_meets_ReadersFaultOnLowestUnreadable :
    LowestUnreadable (placed 0x1000#64 (List.replicate 7 0#8) State.reset).mem 0x1000#64 8 0x1007#64 ∧
    LowestUnreadable State.reset.mem 0xFFFFFFFFFFFFFFFF#64 2 0#64 ∧
    LowestUnreadable State.reset.mem 0xFFFFFFFFFFFFFFFF#64 1 0xFFFFFFFFFFFFFFFF#64 := by
  unfold LowestUnreadable; decide

theorem test_meets_NoStepWritesMemory : ∃ t, step laneState = .next t := ⟨_, rfl⟩

theorem test_meets_IdleHolds :
    (State.reset.uop = 0b000#3 ∧ State.reset.turns = []) ∧
    (withTurns [.sequencer] State.reset).turns = .sequencer :: [] := by decide

theorem test_meets_LaneEightAddsLanes :
    (∀ k, k < 8 → Memory.readAt laneState.mem (laneState.cur + BitVec.ofNat 64 k) = some (BitVec.ofNat 8 k)) ∧
    8 ≤ laneState.rem.toNat ∧
    LowestUnreadable (during 1#3 0#64 0#64 0x1000#64 8#64 (List.replicate 7 0#8)).mem 0x1000#64 8 0x1007#64 := by
  unfold LowestUnreadable; decide

theorem test_meets_HalfTwoAddsHalfWord :
    (Memory.readAt (during 3#3 0#64 0#64 0xFFFFFFFFFFFFFFFF#64 2#64 [1#8, 2#8]).mem 0xFFFFFFFFFFFFFFFF#64 = some 1#8 ∧
      Memory.readAt (during 3#3 0#64 0#64 0xFFFFFFFFFFFFFFFF#64 2#64 [1#8, 2#8]).mem (0xFFFFFFFFFFFFFFFF#64 + 1#64)
        = some 2#8 ∧
      2 ≤ (during 3#3 0#64 0#64 0xFFFFFFFFFFFFFFFF#64 2#64 [1#8, 2#8]).rem.toNat) ∧
    LowestUnreadable (during 3#3 0#64 0#64 0x1000#64 2#64 [1#8]).mem 0x1000#64 2 0x1001#64 := by
  unfold LowestUnreadable; decide

theorem test_meets_OddOneAddsByte :
    (Memory.readAt (during 4#3 0#64 0#64 0x1000#64 1#64 [0x80#8]).mem 0x1000#64 = some 0x80#8 ∧
      1 ≤ (during 4#3 0#64 0#64 0x1000#64 1#64 [0x80#8]).rem.toNat) ∧
    Memory.readAt (during 4#3 0#64 0#64 0x1000#64 1#64 []).mem 0x1000#64 = none := by decide

theorem test_meets_FoldStep :
    2 ^ 16 ≤ (during 5#3 0x10000#64 0#64 0#64 0#64 []).sum.toNat ∧ CallInv (during 5#3 0x10000#64 0#64 0#64 0#64 []) ∧
    (during 5#3 0x10000#64 0#64 0#64 0#64 []).uop = 0b101#3 :=
  ⟨by decide, by constructor <;> decide, by decide⟩

theorem test_meets_ComplementEndsCall :
    (CallInv (during 6#3 0xFFFF#64 0#64 0#64 0#64 []) ∧ (during 6#3 0xFFFF#64 0#64 0#64 0#64 []).uop = 0b110#3) ∧
    (Instr.fold ≠ .cmpl ∧ ∃ t, exec .fold (finished 1#16) = .next t ∧ t.valid = true) :=
  ⟨⟨by constructor <;> decide, by decide⟩, by decide, _, rfl, by decide⟩

theorem test_meets_SequencingFunctions_arguments :
    (8 ≤ (8#64).toNat ∧ (7#64).toNat < 8) ∧ (2 ^ 16 ≤ (0x10000#64).toNat ∧ (0xFFFF#64).toNat < 2 ^ 16) ∧
    (2 ≤ (2#64).toNat ∧ (1#64).toNat = 1 ∧ (0#64).toNat = 0) := by decide

theorem test_meets_SequencingFunctions_next :
    State.reset.uop = 0b000#3 ∧ (∃ t, exec (.start 0#64 8#64) State.reset = .next t) ∧
    (∃ t, exec .lane8 laneState = .next t) ∧ (∃ t, exec .combine laneState = .next t) ∧
    (∃ t, exec .half2 laneState = .next t) ∧ (∃ t, exec .odd1 laneState = .next t) ∧
    (∃ t, exec .fold laneState = .next t) ∧ (∃ t, exec .cmpl laneState = .next t) :=
  ⟨rfl, ⟨_, rfl⟩, ⟨_, rfl⟩, ⟨_, rfl⟩, ⟨_, rfl⟩, ⟨_, rfl⟩, ⟨_, rfl⟩, ⟨_, rfl⟩⟩

theorem test_meets_InstructionFrames :
    (∃ t, exec (.start 0#64 7#64) laneState = .next t) ∧ (∃ t, exec .idle laneState = .next t) ∧
    (∃ t, exec .lane8 laneState = .next t) ∧ (∃ t, exec .combine laneState = .next t) ∧
    (∃ t, exec .half2 laneState = .next t) ∧ (∃ t, exec .odd1 laneState = .next t) ∧
    (∃ t, exec .fold laneState = .next t) ∧ (∃ t, exec .cmpl laneState = .next t) :=
  ⟨⟨_, rfl⟩, ⟨_, rfl⟩, ⟨_, rfl⟩, ⟨_, rfl⟩, ⟨_, rfl⟩, ⟨_, rfl⟩, ⟨_, rfl⟩, ⟨_, rfl⟩⟩

theorem test_meets_OnlyListedOutcomes :
    (∃ f, exec .odd1 State.reset = .fault f) ∧ (∃ r, exec .reserved7 State.reset = .refused r) ∧
    Instr.wellFormed .cmpl = true ∧ (∃ f, step (during 4#3 0#64 0#64 0#64 1#64 []) = .fault f) ∧
    (∃ r, step (during 7#3 0#64 0#64 0#64 0#64 []) = .refused r) ∧
    (∃ r, step (withTurns [readTurn] State.reset) = .refused r) :=
  ⟨⟨_, rfl⟩, ⟨_, rfl⟩, rfl, ⟨_, rfl⟩, ⟨_, rfl⟩, ⟨_, rfl⟩⟩

theorem test_meets_StepRunsDecoded :
    (laneState.turns = [] ∧ decode (.u laneState.uop) = .ok .lane8) ∧
    ((withTurns [.sequencer] laneState).turns = .sequencer :: [] ∧ decode (.u laneState.uop) = .ok .lane8) ∧
    ((withTurns [startTurn 0#64 8#64] State.reset).turns = .host (commandPins (1#1 ++ 0#64 ++ 8#64)) :: [] ∧
      decode (.h (1#1 ++ 0#64 ++ 8#64)) = .ok (.start 0#64 8#64)) ∧
    (withTurns [readTurn] State.reset).turns = .host ⟨false, true, 0#129⟩ :: [] :=
  ⟨⟨rfl, rfl⟩, ⟨rfl, rfl⟩, ⟨rfl, by decide⟩, rfl⟩

theorem test_meets_CallInvariantKept : CallInv laneState ∧ ∃ t, step laneState = .next t :=
  ⟨by constructor <;> decide, _, rfl⟩

/-- S5's eight bytes. -/
def chunk : List Byte :=
  [0#8, 1#8, 2#8, 3#8, 4#8, 5#8, 6#8, 7#8]

/-- Sixteen bytes of which S5's chunk has been read: the registers are S5's after `LANE8`, with another chunk to come. -/
def secondChunk : State :=
  placed 0x1000#64 (chunk ++ chunk)
    { State.reset with uop := 0b001#3, sum := 0x03020100#64, sum1 := 0x07060504#64, cur := 0x1008#64, rem := 8#64 }

theorem test_meets_CallFactsKept_lane :
    CallFacts 0x1000#64 16#64 chunk secondChunk ∧ ∃ t, step secondChunk = .next t :=
  ⟨by constructor <;> first | decide | (unfold HoldsLaneSums; decide), _, rfl⟩

/-- S5 after `LANE8`. -/
def beforeCombine : State :=
  placed 0x1000#64 chunk
    { State.reset with uop := 0b010#3, sum := 0x03020100#64, sum1 := 0x07060504#64, cur := 0x1008#64, rem := 0#64 }

theorem test_meets_CallFactsKept_combine :
    CallFacts 0x1000#64 8#64 chunk beforeCombine ∧ ∃ t, step beforeCombine = .next t :=
  ⟨by constructor <;> first | decide | (unfold HoldsLaneSums; decide), _, rfl⟩

/-- The end of an empty call, by `CMPL` and by the reset pin. -/
theorem test_meets_CallFactsKept_end :
    CallFacts 0#64 0#64 [] (during 6#3 0#64 0#64 0#64 0#64 []) ∧
    (∃ t, step (during 6#3 0#64 0#64 0#64 0#64 []) = .next t) ∧
    CallFacts 0#64 0#64 [] (withTurns [.host ⟨true, false, 0#129⟩] (during 6#3 0#64 0#64 0#64 0#64 [])) ∧
    (∃ t, step (withTurns [.host ⟨true, false, 0#129⟩] (during 6#3 0#64 0#64 0#64 0#64 [])) = .next t) :=
  ⟨by constructor <;> first | decide | (unfold HoldsLaneSums; decide), ⟨_, rfl⟩,
    by constructor <;> first | decide | (unfold HoldsLaneSums; decide),
    resetBlock (during 6#3 0#64 0#64 0#64 0#64 []), rfl⟩

theorem test_meets_StartEstablishesCallFacts : State.reset.uop = 0b000#3 := by decide

theorem test_meets_CursorTracksRemaining :
    CallInv laneState ∧ SequencerNext laneState ∧ ∃ t, step laneState = .next t :=
  ⟨by constructor <;> decide, Or.inl rfl, _, rfl⟩

theorem test_meets_ValidAndResultWriters_cmpl :
    ∃ t, step (during 6#3 0#64 0#64 0#64 0#64 []) = .next t ∧ (during 6#3 0#64 0#64 0#64 0#64 []).valid = false ∧
      t.valid = true ∧ t.result ≠ (during 6#3 0#64 0#64 0#64 0#64 []).result :=
  ⟨_, rfl, by decide, by decide, by decide⟩

theorem test_meets_ValidAndResultWriters_start :
    ∃ t, step (withTurns [startTurn 0#64 0#64] (finished 1#16)) = .next t ∧ (finished 1#16).valid = true ∧
      t.valid = false :=
  ⟨goTo 2#3 (beginCall 0#64 0#64 (finished 1#16)), next_of_stateAfter (by decide), by decide, by decide⟩

theorem test_meets_ValidAndResultWriters_reset :
    ∃ t, step (withTurns [.host ⟨true, false, 0#129⟩] (finished 1#16)) = .next t ∧ t.valid = false :=
  ⟨resetBlock (finished 1#16), rfl, by decide⟩

theorem test_meets_SuccessorTable :
    ∃ t, exec (.start 0#64 7#64) State.reset = .next t ∧ State.reset.uop = 0b000#3 ∧ t.uop = 2#3 :=
  ⟨_, rfl, by decide, by decide⟩

theorem test_meets_OnlyResetDisturbsCall :
    CallInv laneState ∧ laneState.uop ≠ 0b000#3 ∧ (HostPins.mk false true 0#129).reset = false ∧
    (HostPins.mk false true 0#129).read = true ∧ (commandPins 0#129).reset = false ∧
    (commandPins 0#129).read = false :=
  ⟨by constructor <;> decide, by decide, rfl, rfl, rfl, rfl⟩

/-- The other memory holds another byte after the region, and the step goes on or, in a shorter one, stops. -/
theorem test_meets_StepReadsOnlyRegion :
    CallInv laneState ∧ SequencerNext laneState ∧
    (∀ k, k < laneState.rem.toNat →
      Memory.readAt (hostStore 0x1008#64 9#8 laneState).mem (laneState.cur + BitVec.ofNat 64 k)
        = Memory.readAt laneState.mem (laneState.cur + BitVec.ofNat 64 k)) ∧
    (∃ t, step laneState = .next t) ∧ (∃ f, step (hostRelease 0x1007#64 laneState) = .fault f) :=
  ⟨by constructor <;> decide, Or.inl rfl, by decide, ⟨_, rfl⟩, ⟨_, rfl⟩⟩

theorem test_meets_FoldClosedForm : 0 < 2 ^ 64 ∧ 2 ^ 64 - 1 < 2 ^ 64 ∧ (65535 ≠ 0 ∧ 65535 % 65535 = 0) := by decide

theorem test_meets_FoldCountBounds :
    0 < foldCount 0x10000 ∧ 2 ^ 16 - 1 < 2 ^ 16 ∧ 2 ^ 32 - 1 < 2 ^ 32 ∧ 2 ^ 64 - 1 < 2 ^ 64 :=
  ⟨by rw [foldCount, foldCountFuel]; simp, by decide, by decide, by decide⟩

theorem test_meets_FolderReachesSixteenBits :
    (during 5#3 0x10000#64 0#64 0#64 0#64 []).turns = [] ∧
    (during 5#3 0x10000#64 0#64 0#64 0#64 []).uop = 0b101#3 ∧
    2 ^ 16 ≤ (during 5#3 0x10000#64 0#64 0#64 0#64 []).sum.toNat := by decide

theorem test_meets_NoWrapUpToBound : (List.replicate (2 ^ 34 + 7) 0xFF#8).length ≤ Config.safeLength := by
  rw [List.length_replicate]

theorem test_meets_DigestProperties : 2 % 2 = 0 ∧ 2 ≤ 2 := by decide

theorem test_meets_EvenSplitAddsUp : [0x01#8, 0x02#8].length % 2 = 0 ∧ ([] : List Byte).length % 2 = 0 := by decide

theorem test_meets_SelfCheckGivesZero : ([] : List Byte).length % 2 = 0 ∧ [0x45#8, 0x00#8].length % 2 = 0 := by decide

/-- Three bytes `FF` at `0x1000` and the host about to start a call on them (S6). -/
def threeBytes : State :=
  withTurns [startTurn 0x1000#64 3#64] (placed 0x1000#64 [0xFF#8, 0xFF#8, 0xFF#8] State.reset)

theorem test_meets_EmptyCall :
    (withTurns [startTurn 0#64 0#64] State.reset).uop = 0b000#3 ∧
    (withTurns [startTurn 0#64 0#64] State.reset).turns = [startTurn 0#64 0#64] := by decide

theorem test_meets_CallEndsInExactSteps :
    threeBytes.uop = 0b000#3 ∧ threeBytes.turns = [startTurn 0x1000#64 3#64] ∧
    Memory.region threeBytes.mem 0x1000#64 3 = some [0xFF#8, 0xFF#8, 0xFF#8] := by decide

/-- The number of folds of S6's sum, `0x100FE`. -/
theorem test_one_fold : foldCount 0x100FE = 1 := by
  rw [foldCount, foldCountFuel, foldCountFuel]; simp [fold1]

/-- The turns between S6's `START` and its last operation, with a command presented while busy among them. -/
def turnsBetween : List Turn :=
  [.sequencer, startTurn 0#64 0#64, .sequencer, .sequencer, .sequencer]

/-- S6 with the host's turns around it; a read is still to come. -/
def threeBytesAmongTurns : State :=
  withTurns (startTurn 0x1000#64 3#64 :: (turnsBetween ++ [.sequencer, readTurn])) threeBytes

theorem test_meets_CallComputesDigest :
    threeBytesAmongTurns.uop = 0b000#3 ∧
    Memory.region threeBytesAmongTurns.mem 0x1000#64 (3#64).toNat = some [0xFF#8, 0xFF#8, 0xFF#8] ∧
    digest threeBytesAmongTurns.mem 0x1000#64 (3#64).toNat = some (digestOf [0xFF#8, 0xFF#8, 0xFF#8]) ∧
    (3#64).toNat ≤ Config.safeLength ∧
    threeBytesAmongTurns.turns = startTurn 0x1000#64 3#64 :: (turnsBetween ++ .sequencer :: [readTurn]) ∧
    (∀ t ∈ turnsBetween, Undisturbing t) ∧
    sequencerTurns turnsBetween + 1
      = stepsOfCall (3#64).toNat (foldCount (laneTotal [0xFF#8, 0xFF#8, 0xFF#8])) := by
  refine ⟨by decide, by decide, rfl, by decide, rfl, ?_, ?_⟩
  · simp [turnsBetween, Undisturbing, startTurn, commandPins]
  · rw [show laneTotal [0xFF#8, 0xFF#8, 0xFF#8] = 0x100FE from rfl, test_one_fold]; decide

theorem test_meets_ResultDependsOnBytesAlone :
    threeBytes.uop = 0b000#3 ∧ threeBytes.turns = [startTurn 0x1000#64 3#64] ∧
    Memory.region threeBytes.mem 0x1000#64 3 = some [0xFF#8, 0xFF#8, 0xFF#8] ∧
    (withTurns [startTurn 0xFFFFFFFFFFFFFFFF#64 3#64] (placed 0xFFFFFFFFFFFFFFFF#64 [0xFF#8, 0xFF#8, 0xFF#8]
      (finished 1#16))).uop = 0b000#3 ∧
    Memory.region (placed 0xFFFFFFFFFFFFFFFF#64 [0xFF#8, 0xFF#8, 0xFF#8] (finished 1#16)).mem 0xFFFFFFFFFFFFFFFF#64 3
      = some [0xFF#8, 0xFF#8, 0xFF#8] := by decide

theorem test_meets_CallIssuesListedReads :
    threeBytes.uop = 0b000#3 ∧ threeBytes.turns = [startTurn 0x1000#64 3#64] ∧
    Memory.region threeBytes.mem 0x1000#64 3 = some [0xFF#8, 0xFF#8, 0xFF#8] := test_meets_CallEndsInExactSteps

theorem test_meets_CallTrace :
    threeBytes.uop = 0b000#3 ∧ threeBytes.turns = [startTurn 0x1000#64 3#64] ∧
    Memory.region threeBytes.mem 0x1000#64 3 = some [0xFF#8, 0xFF#8, 0xFF#8] := test_meets_CallEndsInExactSteps

/-- The fourth byte of four is not readable (R41's table in section 2.8). -/
theorem test_meets_UnreadableRegionStopsCall :
    (withTurns [startTurn 0x1000#64 4#64] threeBytes).uop = 0b000#3 ∧
    (withTurns [startTurn 0x1000#64 4#64] threeBytes).turns = [startTurn 0x1000#64 4#64] ∧
    ¬ Readable threeBytes.mem 0x1000#64 4 := by
  refine ⟨by decide, by decide, fun h => ?_⟩
  obtain ⟨b, hb⟩ := h 3 (by decide)
  rw [show Memory.readAt threeBytes.mem (0x1000#64 + BitVec.ofNat 64 3) = none by decide] at hb
  cases hb

end Sys2Proof.Tests
end

section
/-! PROOFS. The flags `ready` and `busy` of 10_state.md R18. -/

namespace Sys2Proof.Machine

/-- 10_state.md R18: the flag is computed from the stored code, so it is a test of `uop` in every state. -/
theorem ready_iff_uop_idle (s : State) : ready s = true ↔ s.uop = 0b000#3 :=
  beq_iff_eq

theorem busy_iff_not_ready (s : State) : busy s = true ↔ ready s = false :=
  .of_eq (Bool.not_eq_true' (ready s))

/-- Settles O14: both flags by their tests, and after either reset because `uop` then holds `IDLE`. -/
theorem readyMeansIdle : Obligations.ReadyMeansIdle := by
  unfold Obligations.ReadyMeansIdle
  refine ⟨fun s => ⟨ready_iff_uop_idle s, busy_iff_not_ready s⟩, ?_, fun s => ?_⟩
  · exact (ready_iff_uop_idle State.reset).2 rfl
  · exact (ready_iff_uop_idle (resetBlock s)).2 (resetBlock_uop s)

end Sys2Proof.Machine
end

section
/-! PROOFS. Memory: what a read of several bytes answers (20_memory.md R31) and that nothing is stored (R35). -/

namespace Sys2Proof.Machine

/-! ### The little-endian value -/

/-- R8: the byte at position `k` weighs `256 ^ k`. -/
theorem leNat_range_map (b : Nat → Byte) (n : Nat) :
    leNat ((List.range n).map b) = ((List.range n).map fun k => (b k).toNat * 2 ^ (8 * k)).sum := by
  induction n generalizing b with
  | zero => rfl
  | succ n ih =>
    have shifted : (fun k => (b (k + 1)).toNat * 2 ^ (8 * (k + 1)))
        = fun k => 256 * ((b (k + 1)).toNat * 2 ^ (8 * k)) := by
      funext k; ring
    simp only [List.range_succ_eq_map, List.map_cons, List.map_map, Function.comp_def, Nat.succ_eq_add_one,
      leNat, List.sum_cons, ih fun k => b (k + 1), shifted, List.sum_map_mul_left, Nat.mul_zero, pow_zero, mul_one]

/-- `n` bytes fill `8n` bits. -/
theorem leNat_lt (bs : List Byte) : leNat bs < 2 ^ (8 * bs.length) := by
  induction bs with
  | nil => simp [leNat]
  | cons b bs ih =>
    have hb : b.toNat < 256 := b.isLt
    have hpow : 2 ^ (8 * (bs.length + 1)) = 256 * 2 ^ (8 * bs.length) := by ring
    simp only [leNat, List.length_cons, hpow]
    omega

/-- R53: no read is wider than the port. -/
theorem eight_mul_bytes_le (size : MemSize) : 8 * size.bytes ≤ 64 := by
  cases size <;> decide

/-! ### What a read answers -/

/-- A read that meets an unreadable address collects no bytes. -/
theorem collect_error_of_unreadable {m : Memory} {as : List Word} {x : Word} (hx : x ∈ as)
    (hn : Memory.readAt m x = none) : ∃ c, Memory.collect m as = .error c := by
  cases hc : Memory.collect m as with
  | error c => exact ⟨c, rfl⟩
  | ok bs =>
    have hmap : Memory.readAt m x ∈ bs.map some :=
      (collect_eq_ok m as bs).1 hc ▸ List.mem_map_of_mem hx
    simp [hn] at hmap

/-- The port passes on the address at which collecting failed. -/
theorem respond_of_collect_error {m : Memory} {a c : Word} {size : MemSize}
    (h : Memory.collect m (addresses a size.bytes) = .error c) : respond m ⟨size, a⟩ = .error c := by
  simp [respond, h]

/-- Settles O20: the bytes collected are those at the `n` addresses, and their value fits in the low `8n` bits of the
port, so nothing is cut off; an unreadable byte among them leaves nothing to answer. -/
theorem memReadLittleEndian : Obligations.MemReadLittleEndian := by
  unfold Obligations.MemReadLittleEndian
  refine ⟨fun m a size b h => ?_, fun m a size ⟨k, hk, hn⟩ => ?_⟩
  · refine ⟨_, respond_of_collect (collect_of_readable m a size.bytes b h), ?_⟩
    have hfits := leNat_lt ((List.range size.bytes).map b)
    simp only [List.length_map, List.length_range] at hfits
    rw [BitVec.toNat_ofNat, Nat.mod_mod_of_dvd _ (Nat.pow_dvd_pow 2 (eight_mul_bytes_le size)),
      Nat.mod_eq_of_lt hfits, leNat_range_map]
  · obtain ⟨c, hc⟩ := collect_error_of_unreadable ((mem_addresses a _ size.bytes).2 ⟨k, hk, rfl⟩) hn
    exact ⟨c, respond_of_collect_error hc⟩

/-! ### Nothing is stored -/

/-- The host's turn writes no memory: not by reset (R115), nor by the read (R69), nor by the command (R66). -/
theorem hostTurn_mem {pins : HostPins} {s t : State} (h : hostTurn pins s = .next t) : t.mem = s.mem := by
  rcases hostTurn_cases pins s with ⟨_, hreset⟩ | ⟨_, _, _, hrefused⟩ | ⟨_, u, hu, hcommand⟩
  · cases hreset.symm.trans h
    exact resetBlock_mem s
  · cases hrefused.symm.trans h
  · have humem : u.mem = s.mem := by
      rcases hu with ⟨rfl, _⟩ | ⟨rfl, _, _⟩
      · rfl
      · exact keepTaken_mem s s.result
    rcases hcommand with ⟨_, _, hstart⟩ | ⟨_, hnothing⟩
    · cases hstart.symm.trans h
      exact humem
    · cases hnothing.symm.trans h
      exact humem

/-- R35 for the stored memory itself, whichever agent moves. -/
theorem step_mem {s t : State} (h : step s = .next t) : t.mem = s.mem := by
  rcases step_cases s with ⟨_, hstep⟩ | ⟨rest, _, hstep⟩ | ⟨pins, rest, _, hstep⟩
  · exact (exec_keeps (hstep.symm.trans h)).1
  · exact (exec_keeps (hstep.symm.trans h)).1.trans (setTurns_mem s rest)
  · exact (hostTurn_mem (hstep.symm.trans h)).trans (setTurns_mem s rest)

/-- Settles O22: the memory a step leaves is the memory it found. -/
theorem noStepWritesMemory : Obligations.NoStepWritesMemory := by
  unfold Obligations.NoStepWritesMemory
  intro s t h a
  rw [step_mem h]

end Sys2Proof.Machine
end

section
/-! PROOFS. Formats H and U and the result port (30_encoding.md R51, R52, R54). -/

namespace Sys2Proof.Machine

/-! ### Format H -/

/-- R52: the selection test looks at bit 128 alone. -/
theorem startBit_iff_and_eq (w : CommandWord) :
    startBit w = true ↔ w &&& BitVec.ofNat 129 (2 ^ 128) = BitVec.ofNat 129 (2 ^ 128) := by
  have hbit : BitVec.ofNat 129 (2 ^ 128) = BitVec.twoPow 129 128 := by decide
  rw [hbit, BitVec.and_twoPow, startBit]
  cases w.getLsbD 128 with
  | true => simp
  | false => simp only [Bool.false_eq_true, if_false, false_iff]; decide

theorem decode_command_of_startBit {w : CommandWord} (h : startBit w = true) :
    decode (.h w) = .ok (.start (w.extractLsb' 64 64) (w.extractLsb' 0 64)) :=
  if_pos h

theorem decode_command_of_not_startBit {w : CommandWord} (h : ¬ startBit w = true) :
    decode (.h w) = .error .noCommand :=
  if_neg h

/-- R52: bits 127:64 of a format H word. -/
theorem dataField_toNat (w : CommandWord) : (w.extractLsb' 64 64).toNat = w.toNat / 2 ^ 64 % 2 ^ 64 := by
  rw [BitVec.extractLsb'_toNat, Nat.shiftRight_eq_div_pow]

/-- R52: bits 63:0 of a format H word. -/
theorem lenField_toNat (w : CommandWord) : (w.extractLsb' 0 64).toNat = w.toNat % 2 ^ 64 := by
  rw [BitVec.extractLsb'_toNat, Nat.shiftRight_zero]

/-- Bits put side by side weigh as in one number: the three fields of format H do not overlap. -/
theorem append_toNat {m n : Nat} (x : BitVec m) (y : BitVec n) : (x ++ y).toNat = x.toNat * 2 ^ n + y.toNat := by
  rw [BitVec.toNat_append, ← Nat.shiftLeft_add_eq_or_of_lt y.isLt, Nat.shiftLeft_eq]

theorem startWord_toNat (data len : Word) :
    (1#1 ++ data ++ len : CommandWord).toNat = 2 ^ 128 + data.toNat * 2 ^ 64 + len.toNat := by
  rw [append_toNat, append_toNat, show (1#1).toNat = 1 from rfl]
  ring

/-- The word of `START` lies in its row of the opcode table, whose mask is the selection test. -/
theorem startBit_startWord (data len : Word) : startBit (1#1 ++ data ++ len) = true :=
  (startBit_iff_and_eq _).2 (BitVec.eq_of_toNat_eq (Laws.TableRow.start data len))

/-- R52: every pair of operands is legal, and the word of `START` reads back as it. -/
theorem decode_startWord (data len : Word) : decode (.h (1#1 ++ data ++ len)) = .ok (.start data len) := by
  have hdata : (1#1 ++ data ++ len : CommandWord).extractLsb' 64 64 = data := by
    rw [BitVec.extractLsb'_append_eq_of_le (Nat.le_refl 64)]
    exact BitVec.extractLsb'_append_eq_right
  have hlen : (1#1 ++ data ++ len : CommandWord).extractLsb' 0 64 = len := BitVec.extractLsb'_append_eq_right
  rw [decode_command_of_startBit (startBit_startWord data len), hdata, hlen]

/-- Settles O2: the selection test is bit 128, the operands are the two fields below it, and the word `1 : data : len`
carries any two operands. -/
theorem formatHFields : Obligations.FormatHFields := by
  unfold Obligations.FormatHFields
  refine ⟨fun w h => ?_, fun w h => ?_, fun data len => ?_⟩
  · exact ⟨_, _, decode_command_of_startBit ((startBit_iff_and_eq w).2 h), dataField_toNat w, lenField_toNat w⟩
  · exact decode_command_of_not_startBit (mt (startBit_iff_and_eq w).1 h)
  · exact ⟨1#1 ++ data ++ len, startWord_toNat data len, decode_startWord data len⟩

/-! ### Format U -/

/-- R51: a code is the word of the operation it stands for, the reserved one among them. -/
theorem encode_decodeUop (c : Code) : encode (decodeUop c) = .u c := by
  revert c; decide

/-- R51, R53: a state names no request, or one of some size at `cur`. -/
theorem memRequest_cases (s : State) : memRequest s = none ∨ ∃ size, memRequest s = some (requestOf size s) := by
  unfold memRequest
  split
  · exact .inr ⟨.eight, rfl⟩
  · exact .inr ⟨.two, rfl⟩
  · exact .inr ⟨.one, rfl⟩
  · exact .inl rfl

theorem memRequest_addr {s : State} {r : MemRequest} (h : memRequest s = some r) : r.addr = s.cur := by
  rcases memRequest_cases s with hnone | ⟨size, hsome⟩
  · cases hnone.symm.trans h
  · cases hsome.symm.trans h
    rfl

/-- Settles O1: the eight codes by the decoder's table, the way back by the encoder's, and the address by the one form
every request has. -/
theorem formatUCodes : Obligations.FormatUCodes := by
  unfold Obligations.FormatUCodes
  refine ⟨rfl, rfl, rfl, rfl, rfl, rfl, rfl, rfl, fun c i h => ?_, fun s r h => memRequest_addr h⟩
  cases h
  exact encode_decodeUop c

/-! ### The result port -/

theorem resultPort_of_valid {s : State} (h : s.valid = true) : resultPort s = some s.result :=
  if_pos h

/-- R54: no bit of the result is lost in a wider view. -/
theorem widenResult_toNat {width : Nat} (h : 16 ≤ width) (r : Digest) : (widenResult width r).toNat = r.toNat :=
  BitVec.toNat_setWidth_of_le h

/-- R54: the bits above the result's own 16 are zero. -/
theorem widenResult_highBit (width : Nat) (r : Digest) {k : Nat} (h : 16 ≤ k) :
    (widenResult width r).getLsbD k = false := by
  rw [widenResult, BitVec.getLsbD_setWidth, BitVec.getLsbD_of_ge r k h, Bool.and_false]

/-- Settles O18: the port is `result` while `valid = 1`, and a wider view extends it by zeros. -/
theorem resultZeroExtended : Obligations.ResultZeroExtended := by
  unfold Obligations.ResultZeroExtended
  exact ⟨fun _ => resultPort_of_valid,
    fun width r h => ⟨widenResult_toNat h r, fun _ hk => widenResult_highBit width r hk⟩⟩

end Sys2Proof.Machine
end

section
/-! PROOFS. The host command `START` (40_command_and_sequencer.md R66). -/

namespace Sys2Proof.Machine

/-! ### An accepted `START`, and one that is held -/

/-- R66: enabled when `uop = IDLE`, whatever the operands and the memory. -/
theorem exec_start_of_idle {s : State} (h : s.uop = 0b000#3) (data len : Word) :
    exec (.start data len) s = .next (goTo (seqLane len) (beginCall data len s)) :=
  if_pos ((ready_iff_uop_idle s).2 h)

/-- R66, R119: while busy the command is not accepted, and nothing of it is kept. -/
theorem exec_start_of_busy {s : State} (h : s.uop ≠ 0b000#3) (data len : Word) :
    exec (.start data len) s = .next s :=
  if_neg (mt (ready_iff_uop_idle s).1 h)

/-! ### The flags after it -/

/-- R67: a call begins at `LANE8` or `COMBINE`. -/
theorem seqLane_ne_idle (r : Word) : seqLane r ≠ 0b000#3 := by
  rw [seqLane_eq]
  split <;> decide

theorem ready_eq_false_of_uop_ne_idle {s : State} (h : s.uop ≠ 0b000#3) : ready s = false :=
  beq_false_of_ne h

/-- R69: while `valid = 0` the port holds no value. -/
theorem resultPort_of_not_valid {s : State} (h : s.valid = false) : resultPort s = none :=
  if_neg (ne_true_of_eq_false h)

/-- Settles O15: the accepted command is `beginCall` followed by the sequencer's choice, which is never `IDLE`; while
busy it is held. -/
theorem startBeginsCall : Obligations.StartBeginsCall := by
  unfold Obligations.StartBeginsCall
  intro s data len
  refine ⟨rfl, fun hidle => ?writes, fun hidle => ?flags, fun hbusy => exec_start_of_busy hbusy data len⟩
  case writes =>
    rw [exec_start_of_idle hidle, seqLane_eq]
    rfl
  case flags =>
    exact ⟨_, exec_start_of_idle hidle data len, ready_eq_false_of_uop_ne_idle (seqLane_ne_idle len),
      resultPort_of_not_valid (beginCall_valid s data len)⟩

end Sys2Proof.Machine
end

section
/-! PROOFS. The folder `FOLD` (43_fold.md R90). -/

namespace Sys2Proof.Machine

/-- 43_fold.md R90: `FOLD` has one outcome in every state. -/
theorem exec_fold (s : State) :
    exec .fold s = .next (goTo (seqFold (foldWord s.sum)) (setSum (foldWord s.sum) s)) := rfl

/-- 43_fold.md R90 (e): from 2^16 or more the high part alone is at least 1. -/
theorem foldWord_toNat_ne_zero {v : Word} (h : 2 ^ 16 ≤ v.toNat) : (foldWord v).toNat ≠ 0 := by
  have hhigh : 1 ≤ v.toNat / 2 ^ 16 := (Nat.one_le_div_iff (by decide)).2 h
  rw [foldWord_toNat]
  omega

/-- R24: at `FOLD` the tail is done and there is something to fold. -/
theorem CallInv.sum_ge_of_fold {s : State} (inv : CallInv s) (h : s.uop = 0b101#3) :
    2 ^ 16 ≤ s.sum.toNat ∧ s.rem = 0#64 := by
  obtain ⟨hrem, hsum⟩ := inv.foldDone h
  exact ⟨hsum, BitVec.eq_of_toNat_eq hrem⟩

/-- Settles O28: `FOLD` writes `foldWord` of `sum`, which does not wrap, and the folder's choice on the new `sum`;
where a call enables it, R24 gives what `sum` and `rem` hold. -/
theorem foldStep : Obligations.FoldStep := by
  unfold Obligations.FoldStep
  refine ⟨rfl, fun s => ⟨_, exec_fold s, ?folded, ?next, ?nonzero, CallInv.sum_ge_of_fold, rfl⟩⟩
  case folded => exact foldWord_toNat s.sum
  case next => exact seqFold_eq (foldWord s.sum)
  case nonzero => exact foldWord_toNat_ne_zero

end Sys2Proof.Machine
end

section
/-! PROOFS. The output stage `CMPL` (44_complement_output.md R95). -/

namespace Sys2Proof.Machine

/-- 44_complement_output.md R95: `CMPL` has one outcome in every state. -/
theorem exec_cmpl (s : State) : exec .cmpl s = .next (goTo 0b000#3 (deliver (complementLow s.sum) s)) := rfl

/-- R95 (a), (b): the complement is bitwise, so cutting off the upper 48 bits commutes with it. -/
theorem complementLow_eq_xor (v : Word) : complementLow v = v.extractLsb' 0 16 ^^^ 0xFFFF#16 := by
  have hcut : complementLow v = ~~~(v.extractLsb' 0 16) := BitVec.extractLsb'_not_of_lt (by decide)
  rw [hcut, BitVec.not_def, BitVec.xor_comm]
  rfl

/-- R24: at `CMPL` the tail is done and nothing is left to fold. -/
theorem CallInv.sum_lt_of_cmpl {s : State} (inv : CallInv s) (h : s.uop = 0b110#3) :
    s.sum.toNat < 2 ^ 16 ∧ s.rem = 0#64 := by
  obtain ⟨hrem, hsum⟩ := inv.complement h
  exact ⟨hsum, BitVec.eq_of_toNat_eq hrem⟩

/-- R95 (d): every operation but `CMPL` leaves `result`, and leaves `valid` unless it is a `START`, which clears it. -/
theorem exec_keeps_result {i : Instr} {s t : State} (hi : i ≠ .cmpl) (h : exec i s = .next t) :
    t.result = s.result ∧ (t.valid = s.valid ∨ t.valid = false) := by
  have hnext := exec_next h
  cases i with
  | start data len =>
    obtain ⟨-, rfl⟩ | ⟨-, rfl⟩ := hnext
    · exact ⟨rfl, .inr rfl⟩
    · exact ⟨rfl, .inl rfl⟩
  | idle => obtain rfl : t = s := hnext; exact ⟨rfl, .inl rfl⟩
  | lane8 => obtain ⟨d, -, rfl⟩ := hnext; exact ⟨rfl, .inl rfl⟩
  | combine => cases hnext; exact ⟨rfl, .inl rfl⟩
  | half2 => obtain ⟨d, -, rfl⟩ := hnext; exact ⟨rfl, .inl rfl⟩
  | odd1 => obtain ⟨d, -, rfl⟩ := hnext; exact ⟨rfl, .inl rfl⟩
  | fold => cases hnext; exact ⟨rfl, .inl rfl⟩
  | cmpl => exact absurd rfl hi
  | reserved7 => exact hnext.elim

/-- Settles O29: `CMPL` delivers `complementLow` of `sum` and goes to `IDLE`; where a call enables it, R24 gives what
`sum` and `rem` hold; the other operations keep `result` and never raise `valid`. -/
theorem complementEndsCall : Obligations.ComplementEndsCall := by
  unfold Obligations.ComplementEndsCall
  refine ⟨rfl, fun s => ⟨_, exec_cmpl s, ?complement, ?bitwise, rfl, rfl, ?ready, CallInv.sum_lt_of_cmpl, rfl⟩,
    ?others⟩
  case complement => exact complementLow_toNat s.sum
  case bitwise => exact complementLow_eq_xor s.sum
  case ready => exact (ready_iff_uop_idle _).2 (goTo_uop _ _)
  case others =>
    intro i s t hi h
    obtain ⟨hresult, hvalid⟩ := exec_keeps_result hi h
    refine ⟨hresult, fun ht => ?_⟩
    rcases hvalid with hkept | hcleared
    · exact hkept ▸ ht
    · exact absurd hcleared (ne_false_of_eq_true ht)

end Sys2Proof.Machine
end

section
/-! PROOFS. The reset pin and a command presented during a call (70_reset_and_hazards.md R115, R119). -/

namespace Sys2Proof.Machine

/-! ### The reset pin -/

/-- 60_exceptions.md R103: with the reset pin the rest of the pins plays no part. -/
theorem hostTurn_of_reset {pins : HostPins} (h : pins.reset = true) (s : State) :
    hostTurn pins s = .next (resetBlock s) :=
  if_pos h

/-- R115: reset reads no memory, so what it writes does not depend on the memory it finds. -/
theorem resetBlock_setMem (s : State) (m : Memory) :
    resetBlock { s with mem := m } = { resetBlock s with mem := m } := rfl

/-- Settles O12: with the pin set a host turn is `resetBlock`, whatever else is presented; that leaves the memory alone
and `uop = IDLE`, where a `START` is accepted. -/
theorem resetPinWins : Obligations.ResetPinWins := by
  unfold Obligations.ResetPinWins
  intro s pins h
  refine ⟨resetBlock s, hostTurn_of_reset h s, resetBlock_uop s, resetBlock_valid s, ?ready, ?written, ?read,
    ?priority, fun data len => ⟨_, exec_start_of_idle (resetBlock_uop s) data len, rfl, rfl, rfl, rfl, rfl, ?next⟩⟩
  case ready => exact (ready_iff_uop_idle _).2 (resetBlock_uop s)
  case written =>
    intro a
    rw [resetBlock_mem]
  case read =>
    intro m
    rw [hostTurn_of_reset h, resetBlock_setMem]
  case priority => exact hostTurn_of_reset (pins := { pins with read := false, command := 0#129 }) h s
  case next => exact seqLane_eq len

/-! ### A command word alone on the pins -/

theorem hostTurn_command (w : CommandWord) (s : State) : hostTurn (commandPins w) s = runWord (.h w) s := rfl

/-- R119: while busy no command word has an effect, be it a `START` or no command. -/
theorem runWord_command_of_busy {s : State} (h : s.uop ≠ 0b000#3) (w : CommandWord) :
    runWord (.h w) s = .next s := by
  rw [runWord_command]
  split
  · exact exec_start_of_busy h _ _
  · rfl

/-- R66, R119: with `ready = 1` a word whose `start` bit is set begins the call of its two fields. -/
theorem runWord_command_of_start {w : CommandWord} (hw : startBit w = true) {s : State} (h : s.uop = 0b000#3) :
    runWord (.h w) s = .next (goTo (seqLane (w.extractLsb' 0 64))
      (beginCall (w.extractLsb' 64 64) (w.extractLsb' 0 64) s)) := by
  rw [runWord_command, if_pos hw, exec_start_of_idle h]

/-- Settles O16: a word presented while busy leaves the state as it is; with `ready = 1` a `START` is `beginCall`
followed by the sequencer's choice, which is never `IDLE`. -/
theorem commandWhileBusyIgnored : Obligations.CommandWhileBusyIgnored := by
  unfold Obligations.CommandWhileBusyIgnored
  refine ⟨fun s w h => ?busy, fun s w h hw => ?accepted⟩
  case busy =>
    have hbusy : s.uop ≠ 0b000#3 := mt (ready_iff_uop_idle s).2 (ne_true_of_eq_false h)
    rw [hostTurn_command, runWord_command_of_busy hbusy]
  case accepted =>
    have hidle : s.uop = 0b000#3 := (ready_iff_uop_idle s).1 h
    refine ⟨_, (hostTurn_command w s).trans (runWord_command_of_start hw hidle),
      ready_eq_false_of_uop_ne_idle (seqLane_ne_idle _), dataField_toNat w, lenField_toNat w, ?_⟩
    rw [seqLane_eq]
    rfl

end Sys2Proof.Machine
end

section
/-! PROOFS. The encoder and the decoder of formats H, U and M, and a port's word written out as bytes
(30_encoding.md R50 to R53, R57). -/

namespace Sys2Proof.Machine

/-! ### Formats H and U -/

theorem decode_encode (i : Instr) : decode (encode i) = .ok i := by
  cases i with
  | start data len => exact decode_startWord data len
  | idle => rfl
  | lane8 => rfl
  | combine => rfl
  | half2 => rfl
  | odd1 => rfl
  | fold => rfl
  | cmpl => rfl
  | reserved7 => rfl

/-- R52: a word with bit 128 set is that bit and its two fields, side by side. -/
theorem startWord_fields {w : CommandWord} (h : startBit w = true) :
    1#1 ++ w.extractLsb' 64 64 ++ w.extractLsb' 0 64 = w := by
  have hset := congrArg BitVec.toNat ((startBit_iff_and_eq w).1 h)
  have hbit : (w.toNat &&& 2 ^ 128) = 2 ^ 128 := hset
  have hge : 2 ^ 128 ≤ w.toNat := hbit ▸ Nat.and_le_left
  have hlt := w.isLt
  apply BitVec.eq_of_toNat_eq
  rw [startWord_toNat, dataField_toNat, lenField_toNat]
  omega

/-- Settles O3: reading back is by the form of each word; a word that decodes is a command with its strobe set, whose
fields are its operands, or one of the eight codes. -/
theorem encodeDecodeAgree : Obligations.EncodeDecodeAgree := by
  unfold Obligations.EncodeDecodeAgree
  refine ⟨decode_encode, fun w i h => ?_⟩
  cases w with
  | u c =>
    cases h
    exact encode_decodeUop c
  | h w =>
    by_cases hw : startBit w = true
    · cases (decode_command_of_startBit hw).symm.trans h
      exact congrArg PortWord.h (startWord_fields hw)
    · cases (decode_command_of_not_startBit hw).symm.trans h

/-- Settles O5: each by computation with the decoder. -/
theorem writtenWordsDecode : Obligations.WrittenWordsDecode := by
  unfold Obligations.WrittenWordsDecode
  exact ⟨by decide, by decide, rfl, rfl, rfl, rfl, rfl⟩

/-- Settles O9: the arm of the reserved code is the refusal. -/
theorem reservedCodeRefused : Obligations.ReservedCodeRefused := by
  unfold Obligations.ReservedCodeRefused
  exact fun _ => rfl

/-! ### A port's word as bytes -/

theorem leBytes_length (n w : Nat) : (leBytes n w).length = n := by
  induction n generalizing w with
  | zero => rfl
  | succ n ih => simp [leBytes, ih]

/-- `n` bytes hold a number modulo `256 ^ n`. -/
theorem leNat_leBytes (n w : Nat) : leNat (leBytes n w) = w % 256 ^ n := by
  induction n generalizing w with
  | zero => simp [leBytes, leNat, Nat.mod_one]
  | succ n ih =>
    have hlow : (BitVec.ofNat 8 w).toNat = w % 256 := BitVec.toNat_ofNat w 8
    rw [leBytes, leNat, ih, hlow, Nat.pow_succ', Nat.mod_mul]

theorem width_le_bytes (p : Port) : 2 ^ p.width ≤ 256 ^ p.byteLength := by
  cases p <;> decide

/-- Log entry 10: a number of the port's width, written out as the port's bytes, decodes as the port's word. -/
theorem decodeBytes_leBytes (p : Port) {n : Nat} (h : n < 2 ^ p.width) :
    decodeBytes p (leBytes p.byteLength n) = decode (p.word n) := by
  have hread : leNat (leBytes p.byteLength n) = n :=
    (leNat_leBytes _ n).trans (Nat.mod_eq_of_lt (h.trans_le (width_le_bytes p)))
  rw [decodeBytes, if_neg (not_not_intro (leBytes_length _ n)), hread, if_neg (Nat.not_le.2 h)]

theorem portWord_toNat_lt (w : PortWord) : w.toNat < 2 ^ w.port.width := by
  cases w with
  | h w => exact w.isLt
  | u c => exact c.isLt

theorem port_word_toNat (w : PortWord) : w.port.word w.toNat = w := by
  cases w with
  | h w => exact congrArg PortWord.h ((BitVec.ofNat_toNat 129 w).trans (BitVec.setWidth_eq w))
  | u c => exact congrArg PortWord.u ((BitVec.ofNat_toNat 3 c).trans (BitVec.setWidth_eq c))

theorem ofTableBits_byteLength (p : Port) : Port.ofTableBits (8 * p.byteLength) = p := by
  cases p <;> rfl

/-- Settles O4: the row's bytes give the word's number back, and so the word. -/
theorem tableWordsReadBack : Obligations.TableWordsReadBack := by
  unfold Obligations.TableWordsReadBack
  intro i
  simp only [decodeTableWord]
  rw [ofTableBits_byteLength, decodeBytes_leBytes _ (portWord_toNat_lt _), port_word_toNat, decode_encode]
  rfl

/-! ### Format M -/

theorem ofCode_code (size : MemSize) : MemSize.ofCode size.code = some size := by
  cases size <;> rfl

/-- R53: the code is `log2` of the byte count. -/
theorem two_pow_code (size : MemSize) : 2 ^ size.code.toNat = size.bytes := by
  cases size <;> rfl

/-- R57: no read size has the code `10`. -/
theorem size_code_ne_two (size : MemSize) : size.code ≠ 0b10#2 := by
  cases size <;> decide

theorem ofCode_eq_some {c : BitVec 2} {size : MemSize} : MemSize.ofCode c = some size → size.code = c := by
  revert c
  cases size <;> decide

theorem request_sizeField (r : MemRequest) : r.encode.extractLsb' 64 2 = r.size.code :=
  BitVec.extractLsb'_append_eq_left

theorem request_addrField (r : MemRequest) : r.encode.extractLsb' 0 64 = r.addr :=
  BitVec.extractLsb'_append_eq_right

theorem request_decode_encode (r : MemRequest) : MemRequest.decode r.encode = some r := by
  rw [MemRequest.decode, request_sizeField, request_addrField, ofCode_code]
  rfl

/-- R53: bits 65:64 and bits 63:0, side by side, are the whole word. -/
theorem requestWord_fields (w : BitVec 66) : w.extractLsb' 64 2 ++ w.extractLsb' 0 64 = w := by
  have hlt := w.isLt
  apply BitVec.eq_of_toNat_eq
  rw [append_toNat, BitVec.extractLsb'_toNat, BitVec.extractLsb'_toNat, Nat.shiftRight_eq_div_pow,
    Nat.shiftRight_zero]
  omega

theorem request_encode_of_decode {w : BitVec 66} {r : MemRequest} (h : MemRequest.decode w = some r) :
    r.encode = w := by
  rw [MemRequest.decode, Option.map_eq_some_iff] at h
  obtain ⟨size, hsize, rfl⟩ := h
  rw [MemRequest.encode, ofCode_eq_some hsize, requestWord_fields]

/-- R57: a word whose size code is `10` is no request. -/
theorem request_decode_code_two {w : BitVec 66} (h : w.toNat / 2 ^ 64 = 2) : MemRequest.decode w = none := by
  have hcode : w.extractLsb' 64 2 = 0b10#2 := by
    apply BitVec.eq_of_toNat_eq
    rw [BitVec.extractLsb'_toNat, Nat.shiftRight_eq_div_pow, h]
    rfl
  rw [MemRequest.decode, hcode]
  rfl

/-- Settles O6: the word is the size code over the address, and only the three sizes have a code. -/
theorem formatMReadsBack : Obligations.FormatMReadsBack := by
  unfold Obligations.FormatMReadsBack
  exact ⟨fun r => ⟨request_decode_encode r, append_toNat r.size.code r.addr, two_pow_code r.size⟩,
    fun _ => request_decode_code_two, fun _ _ => request_encode_of_decode⟩

/-! ### The request of a state -/

/-- R53: the codes that read are 1, 3 and 4. -/
theorem memRequest_eq_none {s : State} (h1 : s.uop ≠ 1#3) (h3 : s.uop ≠ 3#3) (h4 : s.uop ≠ 4#3) :
    memRequest s = none := by
  unfold memRequest
  split
  case h_1 h => exact absurd (BitVec.eq_of_toNat_eq h) h1
  case h_2 h => exact absurd (BitVec.eq_of_toNat_eq h) h3
  case h_3 h => exact absurd (BitVec.eq_of_toNat_eq h) h4
  case h_4 => rfl

theorem memRequest_of_lane8 {s : State} (h : s.uop = 1#3) : memRequest s = some (requestOf .eight s) := by
  simp [memRequest, h]

theorem memRequest_of_half2 {s : State} (h : s.uop = 3#3) : memRequest s = some (requestOf .two s) := by
  simp [memRequest, h]

theorem memRequest_of_odd1 {s : State} (h : s.uop = 4#3) : memRequest s = some (requestOf .one s) := by
  simp [memRequest, h]

theorem memRequest_of_combine {s : State} (h : s.uop = 2#3) : memRequest s = none := by
  simp [memRequest, h]

theorem memRequest_of_fold {s : State} (h : s.uop = 5#3) : memRequest s = none := by
  simp [memRequest, h]

/-- Settles O7: each reading code names its size, no other code a request, and no size has the code `10`. -/
theorem requestsIssued : Obligations.RequestsIssued := by
  unfold Obligations.RequestsIssued
  intro s
  refine ⟨memRequest_of_lane8, memRequest_of_half2, memRequest_of_odd1, memRequest_eq_none, fun r _ => ?_⟩
  rw [request_sizeField]
  exact size_code_ne_two r.size

end Sys2Proof.Machine
end

section
/-! PROOFS. The micro-operations: what `LANE8`, `HALF2` and `ODD1` read and add, where they stop, and `COMBINE`
(20_memory.md R41, 41_lane_adder.md R80, R81, 42_tail.md R85, R86). -/

namespace Sys2Proof.Machine

/-! ### The bytes a read collects -/

/-- R41, R103 (d): collecting fails exactly at the lowest unreadable address. -/
theorem collect_eq_error_iff {m : Memory} {a c : Word} {n : Nat} :
    Memory.collect m (addresses a n) = .error c ↔ LowestUnreadable m a n c := by
  constructor
  · intro h
    obtain ⟨hmem, hnone, hlow⟩ := collect_error m _ c h
    exact ⟨(mem_addresses a c n).1 hmem, hnone, fun k hk => hlow _ ((mem_addresses a _ n).2 ⟨k, hk, rfl⟩)⟩
  · rintro ⟨⟨k, hk, rfl⟩, hnone, hlow⟩
    obtain ⟨c, hc⟩ := collect_error_of_unreadable ((mem_addresses a _ n).2 ⟨k, hk, rfl⟩) hnone
    obtain ⟨hmem, hnone', hlow'⟩ := collect_error m _ c hc
    obtain ⟨j, hj, rfl⟩ := (mem_addresses a c n).1 hmem
    have heq : a + BitVec.ofNat 64 j = a + BitVec.ofNat 64 k :=
      BitVec.eq_of_toNat_eq (Nat.le_antisymm (hlow' _ ((mem_addresses a _ n).2 ⟨k, hk, rfl⟩) hnone)
        (hlow j hj hnone'))
    rw [hc, heq]

theorem respond_ok {m : Memory} {a d : Word} {size : MemSize} (h : respond m ⟨size, a⟩ = .ok d) :
    ∃ bs, Memory.collect m (addresses a size.bytes) = .ok bs ∧ d = BitVec.ofNat 64 (leNat bs) := by
  cases hc : Memory.collect m (addresses a size.bytes) with
  | ok bs => exact ⟨bs, rfl, Except.ok.inj (h.symm.trans (respond_of_collect hc))⟩
  | error c => cases h.symm.trans (respond_of_collect_error hc)

theorem withRead_fault_iff {size : MemSize} {s : State} {k : Word → State} {c : Word} :
    withRead size s k = .fault (.unreadableByte c) ↔ LowestUnreadable s.mem s.cur size.bytes c := by
  rw [← collect_eq_error_iff]
  constructor
  · intro h
    obtain ⟨a, ha, hf⟩ := withRead_fault h
    cases hf
    exact respond_error ha
  · exact fun h => withRead_of_error (respond_of_collect_error h)

/-- Settles O21: each of the three is a read at `cur`, and a read stops exactly at the lowest unreadable address. -/
theorem readersFaultOnLowestUnreadable : Obligations.ReadersFaultOnLowestUnreadable := by
  unfold Obligations.ReadersFaultOnLowestUnreadable
  exact fun _ _ => ⟨withRead_fault_iff, withRead_fault_iff, withRead_fault_iff⟩

/-! ### The operands as little-endian values -/

theorem leNat_append (lo hi : List Byte) : leNat (lo ++ hi) = leNat lo + 2 ^ (8 * lo.length) * leNat hi := by
  induction lo with
  | nil => simp [leNat]
  | cons b lo ih =>
    simp only [List.cons_append, leNat, ih, List.length_cons]
    ring

theorem leNat_two (b₀ b₁ : Byte) : leNat [b₀, b₁] = b₀.toNat + 256 * b₁.toNat := rfl

theorem leNat_four (b₀ b₁ b₂ b₃ : Byte) :
    leNat [b₀, b₁, b₂, b₃] = b₀.toNat + b₁.toNat * 2 ^ 8 + b₂.toNat * 2 ^ 16 + b₃.toNat * 2 ^ 24 := by
  simp only [leNat]
  ring

/-- R82: the lanes of a chunk are the values of its four lower and its four upper bytes. -/
theorem lanes_of_chunk {lo hi : List Byte} (hlo : lo.length = 4) (hhi : hi.length = 4) :
    (laneLow (BitVec.ofNat 64 (leNat (lo ++ hi)))).toNat = leNat lo ∧
      (laneHigh (BitVec.ofNat 64 (leNat (lo ++ hi)))).toNat = leNat hi := by
  have hl := leNat_lt lo
  have hh := leNat_lt hi
  rw [hlo] at hl
  rw [hhi] at hh
  rw [laneLow_toNat, laneHigh_toNat, BitVec.toNat_ofNat, leNat_append, hlo]
  omega

/-! ### A read that is answered -/

/-- R80: with its eight bytes readable `LANE8` adds the value of the lower four to `sum` and of the upper four to
`sum1`. -/
theorem exec_lane8_of_collect {s : State} {lo hi : List Byte} (hlo : lo.length = 4) (hhi : hi.length = 4)
    (h : Memory.collect s.mem (addresses s.cur 8) = .ok (lo ++ hi)) :
    ∃ d, exec .lane8 s = .next (laneEffect d s) ∧ (laneLow d).toNat = leNat lo ∧ (laneHigh d).toNat = leNat hi :=
  ⟨_, withRead_of_ok (respond_of_collect (size := .eight) h), lanes_of_chunk hlo hhi⟩

/-- R85: with its two bytes readable `HALF2` adds their little-endian value. -/
theorem exec_half2_of_collect {s : State} {b₀ b₁ : Byte}
    (h : Memory.collect s.mem (addresses s.cur 2) = .ok [b₀, b₁]) :
    ∃ d, exec .half2 s = .next (halfEffect d s) ∧ (halfOperand d).toNat = leNat [b₀, b₁] := by
  refine ⟨_, withRead_of_ok (respond_of_collect (size := .two) h), ?_⟩
  have hlt : leNat [b₀, b₁] < 2 ^ 16 := leNat_lt [b₀, b₁]
  rw [halfOperand_toNat, BitVec.toNat_ofNat]
  omega

/-- R86: with its one byte readable `ODD1` adds it. -/
theorem exec_odd1_of_collect {s : State} {b : Byte} (h : Memory.collect s.mem (addresses s.cur 1) = .ok [b]) :
    ∃ d, exec .odd1 s = .next (oddEffect d s) ∧ (oddOperand d).toNat = b.toNat := by
  refine ⟨_, withRead_of_ok (respond_of_collect (size := .one) h), ?_⟩
  have hlt := b.isLt
  rw [oddOperand_toNat, BitVec.toNat_ofNat, leNat, leNat]
  omega

/-! ### Each micro-operation -/

/-- Settles O24: the eight bytes are two lanes of four; `laneEffect` adds each to its accumulator and steps by 8. -/
theorem laneEightAddsLanes : Obligations.LaneEightAddsLanes := by
  unfold Obligations.LaneEightAddsLanes
  refine ⟨rfl, fun s b h => ?reads, fun s c h => withRead_fault_iff.2 h⟩
  have hread : Memory.collect s.mem (addresses s.cur 8) = .ok ([b 0, b 1, b 2, b 3] ++ [b 4, b 5, b 6, b 7]) :=
    collect_of_readable s.mem s.cur 8 b h
  obtain ⟨d, hexec, hlow, hhigh⟩ := exec_lane8_of_collect rfl rfl hread
  refine ⟨laneEffect d s, hexec, ?low, ?high, ?cursor, fun hrem => ⟨?rem, drawsAfter_of_le hrem⟩, seqLane_eq _, rfl⟩
  case low => rw [laneEffect_sum, BitVec.toNat_add, hlow, leNat_four]
  case high => rw [laneEffect_sum1, BitVec.toNat_add, hhigh, leNat_four]
  case cursor => exact BitVec.toNat_add s.cur 8#64
  case rem => exact remAfter_toNat hrem

/-- R81: `COMBINE` has one outcome in every state. -/
theorem exec_combine (s : State) :
    exec .combine s = .next (goTo (seqTail s.rem (s.sum + s.sum1)) (addToSum s.sum1 s)) := rfl

/-- Settles O25: the addition modulo 2^64, and the tail's choice on the new `sum`. -/
theorem combineAddsHighLane : Obligations.CombineAddsHighLane := by
  unfold Obligations.CombineAddsHighLane
  exact ⟨rfl, fun s => ⟨_, exec_combine s, BitVec.toNat_add s.sum s.sum1, seqTail_eq _ _, rfl⟩⟩

/-- Settles O26: the two bytes are one little-endian half-word; `halfEffect` adds it and steps by 2. -/
theorem halfTwoAddsHalfWord : Obligations.HalfTwoAddsHalfWord := by
  unfold Obligations.HalfTwoAddsHalfWord
  refine ⟨rfl, fun s b₀ b₁ h₀ h₁ => ?reads, fun s c h => withRead_fault_iff.2 h⟩
  have hread : Memory.collect s.mem (addresses s.cur 2) = .ok [b₀, b₁] := by
    simp [collect_eq_ok, addresses, h₀, h₁]
  obtain ⟨d, hexec, hd⟩ := exec_half2_of_collect hread
  refine ⟨halfEffect d s, hexec, ?sum, ?cursor, fun hrem => ⟨?rem, drawsAfter_of_le hrem⟩, seqTail_eq _ _, rfl⟩
  case sum => rw [halfEffect_sum, BitVec.toNat_add, hd, leNat_two]
  case cursor => exact BitVec.toNat_add s.cur 2#64
  case rem => exact remAfter_toNat hrem

/-- A one-byte access has one address, so that is its lowest unreadable one. -/
theorem lowestUnreadable_one {m : Memory} {a : Word} (h : Memory.readAt m a = none) : LowestUnreadable m a 1 a := by
  refine ⟨⟨0, Nat.one_pos, (BitVec.add_zero a).symm⟩, h, fun k hk _ => ?_⟩
  obtain rfl : k = 0 := Nat.lt_one_iff.1 hk
  exact (congrArg BitVec.toNat (BitVec.add_zero a)).ge

/-- Settles O27: the one byte is its own value; `oddEffect` adds it and steps by 1. -/
theorem oddOneAddsByte : Obligations.OddOneAddsByte := by
  unfold Obligations.OddOneAddsByte
  refine ⟨rfl, fun s b h => ?reads, fun s h => withRead_fault_iff.2 (lowestUnreadable_one h)⟩
  have hread : Memory.collect s.mem (addresses s.cur 1) = .ok [b] := by
    simp [collect_eq_ok, addresses, h]
  obtain ⟨d, hexec, hd⟩ := exec_odd1_of_collect hread
  refine ⟨oddEffect d s, hexec, ?sum, ?cursor, fun hrem => ⟨?rem, drawsAfter_of_le hrem⟩, seqFold_eq _, rfl⟩
  case sum => rw [oddEffect_sum, BitVec.toNat_add, hd]
  case cursor => exact BitVec.toNat_add s.cur 1#64
  case rem => exact remAfter_toNat hrem

end Sys2Proof.Machine
end

section
/-! PROOFS. One step: who moves and what it runs, reads of the result, and the state after reset
(40_command_and_sequencer.md R68, R69, 60_exceptions.md R103, 10_state.md R23). -/

namespace Sys2Proof.Machine

/-! ### Who moves -/

/-- R68: a step is one of the two agents'. -/
theorem sequencerNext_or_hostNext (s : State) : SequencerNext s ∨ ∃ pins rest, HostNext s pins rest := by
  rcases step_cases s with ⟨h, -⟩ | ⟨rest, h, -⟩ | ⟨pins, rest, h, -⟩
  · exact .inl (.inl (by rw [h]; rfl))
  · exact .inl (.inr (by rw [h]; rfl))
  · exact .inr ⟨pins, rest, h⟩

/-- R15, R68: the sequencer runs the operation whose code is in `uop`; its turn is used up. -/
theorem step_of_sequencerNext {s : State} (h : SequencerNext s) :
    step s = exec (decodeUop s.uop) (setTurns s.turns.tail s) := by
  rcases step_cases s with ⟨hturns, hstep⟩ | ⟨rest, hturns, hstep⟩ | ⟨pins, rest, hturns, -⟩
  · have hself : setTurns s.turns.tail s = s := by
      rw [hturns, List.tail_nil, ← hturns]
      rfl
    rw [hstep, hself]
  · rw [hstep, hturns, List.tail_cons]
  · rw [SequencerNext, hturns, List.head?_cons] at h
    rcases h with h | h <;> cases h

theorem sequencerNext_of_nil {s : State} (h : s.turns = []) : SequencerNext s :=
  .inl (by rw [h]; rfl)

theorem sequencerNext_of_cons {s : State} {rest : List Turn} (h : s.turns = .sequencer :: rest) : SequencerNext s :=
  .inr (by rw [h]; rfl)

theorem step_of_nil {s : State} (h : s.turns = []) : step s = exec (decodeUop s.uop) s := by
  have hself : setTurns s.turns.tail s = s := by
    rw [h, List.tail_nil, ← h]
    rfl
  rw [step_of_sequencerNext (sequencerNext_of_nil h), hself]

theorem step_of_sequencer_cons {s : State} {rest : List Turn} (h : s.turns = .sequencer :: rest) :
    step s = exec (decodeUop s.uop) (setTurns rest s) := by
  rw [step_of_sequencerNext (sequencerNext_of_cons h), h, List.tail_cons]

theorem step_of_hostNext {s : State} {pins : HostPins} {rest : List Turn} (h : HostNext s pins rest) :
    step s = hostTurn pins (setTurns rest s) := by
  unfold HostNext at h
  rw [step, takeTurn, h]

theorem runWord_of_decode {w : PortWord} {i : Instr} (h : decode w = .ok i) (s : State) : runWord w s = exec i s := by
  rw [runWord, h]

theorem runWord_startWord (data len : Word) (s : State) :
    runWord (.h (1#1 ++ data ++ len)) s = exec (.start data len) s :=
  runWord_of_decode (decode_startWord data len) s

/-- Settles O33: the sequencer's turn runs the code in `uop`, the host's the word on its command port. -/
theorem stepRunsDecoded : Obligations.StepRunsDecoded := by
  unfold Obligations.StepRunsDecoded
  refine ⟨fun s i hturns hi => ?empty, fun s i rest hturns hi => ?sequencer, fun s i w rest hturns hi => ?command,
    fun s pins rest hturns => step_of_hostNext hturns⟩
  case empty =>
    cases hi
    exact step_of_nil hturns
  case sequencer =>
    cases hi
    exact step_of_sequencer_cons hturns
  case command =>
    rw [step_of_hostNext hturns, hostTurn_command, runWord_of_decode hi]
    rfl

/-- Settles O23: `IDLE` is the hold, and only the turn is used up. -/
theorem idleHolds : Obligations.IdleHolds := by
  unfold Obligations.IdleHolds
  refine ⟨fun _ => rfl, fun s hidle hturns => ?_, fun s rest hidle hturns => ?_⟩
  · rw [step_of_nil hturns, hidle]
    rfl
  · have hop : decodeUop s.uop = .idle := congrArg decodeUop hidle
    rw [step_of_sequencer_cons hturns, hop]
    rfl

/-! ### A placed word -/

theorem withFetchWord_encoded (w : PortWord) (s : State) :
    s.withFetchWord (8 * w.port.byteLength) w.toNat = placeWord w s := by
  rw [State.withFetchWord, ofTableBits_byteLength, port_word_toNat]

/-- Log entry 11: a placed command word comes with a host turn of its own, and nothing of the state is lost. -/
theorem step_placeWord_command (w : CommandWord) (s : State) : step (placeWord (.h w) s) = runWord (.h w) s := by
  have hnext : HostNext (placeWord (.h w) s) (commandPins w) s.turns := rfl
  rw [step_of_hostNext hnext, hostTurn_command]
  rfl

/-- Log entry 11: a code placed in `uop` is the sequencer's next operation, whatever turns are to come. -/
theorem step_placeWord_uop (c : Code) (s : State) :
    step (placeWord (.u c) s) = exec (decodeUop c) { s with uop := c } := by
  by_cases hturns : s.turns = []
  · rw [step_of_nil (s := placeWord (.u c) s) (congrArg sequencerFirst hturns), placeWord, hturns, sequencerFirst,
      ← hturns]
  · obtain ⟨turn, rest, hcons⟩ := List.exists_cons_of_ne_nil hturns
    have hfirst : (placeWord (.u c) s).turns = .sequencer :: s.turns := by rw [placeWord, hcons]; rfl
    rw [step_of_sequencer_cons hfirst]
    rfl

/-- Settles O34: the table's number is the word's own, and a placed word is the next step's. -/
theorem placedWordRunsNext : Obligations.PlacedWordRunsNext := by
  unfold Obligations.PlacedWordRunsNext
  refine ⟨fun s data len => ?_, fun s c => ?_⟩
  · have hplaced := withFetchWord_encoded (encode (.start data len)) s
    exact (congrArg step hplaced).trans ((step_placeWord_command _ s).trans (runWord_startWord data len s))
  · exact (congrArg step (withFetchWord_encoded (.u c) s)).trans (step_placeWord_uop c s)

/-! ### The host's pins -/

theorem hostTurn_of_no_read {pins : HostPins} (hreset : pins.reset = false) (hread : pins.read = false) (s : State) :
    hostTurn pins s = runWord (.h pins.command) s := by
  simp [hostTurn, hreset, hread]

/-- R103 (c): the read takes the result, then the command is looked at. -/
theorem hostTurn_of_read {pins : HostPins} (hreset : pins.reset = false) (hread : pins.read = true) {s : State}
    (hvalid : s.valid = true) : hostTurn pins s = runWord (.h pins.command) (keepTaken s.result s) := by
  simp [hostTurn, hreset, hread, hostRead, resultPort_of_valid hvalid]

/-- R69: while `valid = 0` the read is refused, whatever the command port carries. -/
theorem hostTurn_of_refused_read {pins : HostPins} (hreset : pins.reset = false) (hread : pins.read = true) {s : State}
    (hvalid : s.valid = false) : hostTurn pins s = .refused .resultNotValid := by
  simp [hostTurn, hreset, hread, hostRead, resultPort_of_not_valid hvalid]

/-- R57: a word with `start = 0` does nothing. -/
theorem runWord_command_of_not_start {w : CommandWord} (hw : startBit w = false) (s : State) :
    runWord (.h w) s = .next s := by
  rw [runWord_command, hw]
  rfl

/-- Settles O13: with the pin set the turn is `resetBlock`, which keeps `taken` and the turns and clears `valid`. -/
theorem resetOverridesRead : Obligations.ResetOverridesRead := by
  unfold Obligations.ResetOverridesRead
  intro s pins hreset
  refine ⟨⟨resetBlock s, hostTurn_of_reset hreset s, rfl, rfl, resultPort_of_not_valid rfl⟩, fun rest hnext => ?_⟩
  exact ⟨_, (step_of_hostNext hnext).trans (hostTurn_of_reset hreset _), rfl, rfl, rfl, rfl⟩

/-- Settles O19: the read keeps the old `result`, then the command begins its call. -/
theorem readThenStart : Obligations.ReadThenStart := by
  unfold Obligations.ReadThenStart
  intro s data len hvalid hidle
  have hkept : (keepTaken s.result s).uop = 0b000#3 := hidle
  rw [hostTurn_of_read rfl rfl hvalid, runWord_startWord, exec_start_of_idle hkept, seqLane_eq]
  rfl

theorem run_succ {s t : State} (h : step s = .next t) (k : Nat) :
    Host.Core.run core (k + 1) s = Host.Core.run core k t := by
  have hstep : core.step s = .next t := h
  simp only [Host.Core.run, hstep]

/-- R69: one read with no command keeps the value of `result`. -/
theorem step_read {s : State} {w : CommandWord} {rest : List Turn} (hw : startBit w = false) (hvalid : s.valid = true)
    (hnext : HostNext s ⟨false, true, w⟩ rest) : step s = .next (keepTaken s.result (setTurns rest s)) := by
  have hvalid' : (setTurns rest s).valid = true := hvalid
  rw [step_of_hostNext hnext, hostTurn_of_read rfl rfl hvalid', runWord_command_of_not_start hw, setTurns_result]

/-- R69 for any number of reads, by induction on it: each leaves `valid`, `result` and all else as it was. -/
theorem run_reads (n : Nat) {s : State} {w : CommandWord} {rest : List Turn} (hw : startBit w = false)
    (hvalid : s.valid = true) (hturns : s.turns = List.replicate n (.host ⟨false, true, w⟩) ++ rest) :
    Host.Core.run core n s = .next { s with turns := rest, taken := s.taken ++ List.replicate n s.result } := by
  induction n generalizing s with
  | zero =>
    obtain rfl : s.turns = rest := hturns
    rw [List.replicate_zero, List.append_nil]
    rfl
  | succ n ih =>
    have hrest :=
      ih (s := keepTaken s.result (setTurns (List.replicate n (.host ⟨false, true, w⟩) ++ rest) s)) hvalid rfl
    rw [keepTaken_taken, setTurns_taken, List.append_assoc] at hrest
    exact (run_succ (step_read hw hvalid hturns) n).trans hrest

/-- Settles O17: by induction on the number of reads; with `valid = 0` the port has nothing to give. -/
theorem readReturnsResult : Obligations.ReadReturnsResult := by
  unfold Obligations.ReadReturnsResult
  refine ⟨fun n s w rest => run_reads n, fun s w rest hvalid hnext => ?_⟩
  exact (step_of_hostNext hnext).trans (hostTurn_of_refused_read rfl rfl hvalid)

/-! ### After reset -/

/-- Settles O10: by the fields of `State.reset`; the flag and the port by their tests. -/
theorem resetStateValues : Obligations.ResetStateValues := by
  unfold Obligations.ResetStateValues
  exact ⟨rfl, rfl, (ready_iff_uop_idle State.reset).2 rfl, resultPort_of_not_valid rfl⟩

/-- Settles O11: no address is listed. -/
theorem resetMemoryUnreadable : Obligations.ResetMemoryUnreadable := by
  unfold Obligations.ResetMemoryUnreadable
  exact fun _ => rfl

end Sys2Proof.Machine
end

section
/-! PROOFS. What an instruction and a step can write, name as successor and stop with (10_state.md R10,
40_command_and_sequencer.md R67, R68, 60_exceptions.md R101). -/

namespace Sys2Proof.Machine

/-! ### The sequencing functions -/

theorem seqLane_cases (r : Word) : seqLane r = 1#3 ∨ seqLane r = 2#3 := by
  rw [seqLane_eq]
  split
  · exact .inl rfl
  · exact .inr rfl

theorem seqFold_cases (v : Word) : seqFold v = 5#3 ∨ seqFold v = 6#3 := by
  rw [seqFold_eq]
  split
  · exact .inl rfl
  · exact .inr rfl

theorem seqTail_cases (r v : Word) : seqTail r v = 3#3 ∨ seqTail r v = 4#3 ∨ seqTail r v = seqFold v := by
  unfold seqTail
  split
  · exact .inl rfl
  · split
    · exact .inr (.inl rfl)
    · exact .inr (.inr rfl)

theorem seqTail_codes (r v : Word) :
    seqTail r v = 3#3 ∨ seqTail r v = 4#3 ∨ seqTail r v = 5#3 ∨ seqTail r v = 6#3 := by
  rcases seqTail_cases r v with h | h | h
  · exact .inl h
  · exact .inr (.inl h)
  · rw [h]
    exact .inr (.inr (seqFold_cases v))

theorem seqLane_of_le {r : Word} (h : 8 ≤ r.toNat) : seqLane r = 0b001#3 := if_pos h
theorem seqLane_of_lt {r : Word} (h : r.toNat < 8) : seqLane r = 0b010#3 := if_neg (Nat.not_le.2 h)

theorem seqFold_of_le {v : Word} (h : 2 ^ 16 ≤ v.toNat) : seqFold v = 0b101#3 := by
  rw [seqFold_eq, if_pos h]

theorem seqFold_of_lt {v : Word} (h : v.toNat < 2 ^ 16) : seqFold v = 0b110#3 := by
  rw [seqFold_eq, if_neg (Nat.not_le.2 h)]

theorem seqTail_of_le {r : Word} (h : 2 ≤ r.toNat) (v : Word) : seqTail r v = 0b011#3 := if_pos h

theorem seqTail_of_one {r : Word} (h : r.toNat = 1) (v : Word) : seqTail r v = 0b100#3 := by
  rw [seqTail, if_neg (by omega), if_pos h]

theorem seqTail_of_zero {r : Word} (h : r.toNat = 0) (v : Word) : seqTail r v = seqFold v := by
  rw [seqTail, if_neg (by omega), if_neg (by omega)]

/-- Settles O30: the functions by their tests; each operation's next state carries the code its function gives for the
`rem` and `sum` it leaves. -/
theorem sequencingFunctions : Obligations.SequencingFunctions := by
  unfold Obligations.SequencingFunctions
  refine ⟨fun r => ⟨seqLane_of_le, seqLane_of_lt⟩, fun v => ⟨seqFold_of_le, seqFold_of_lt⟩,
    fun r v => ⟨fun h => seqTail_of_le h v, fun h => seqTail_of_one h v, fun h => seqTail_of_zero h v⟩,
    ?start, ?lane8, ?combine, ?half2, ?odd1, ?fold, ?cmpl⟩
  case start =>
    intro s t data len hidle h
    cases (exec_start_of_idle hidle data len).symm.trans h
    rfl
  case lane8 => intro s t h; obtain ⟨d, -, rfl⟩ := exec_next h; rfl
  case combine => intro s t h; cases h; rfl
  case half2 => intro s t h; obtain ⟨d, -, rfl⟩ := exec_next h; rfl
  case odd1 => intro s t h; obtain ⟨d, -, rfl⟩ := exec_next h; rfl
  case fold => intro s t h; cases h; rfl
  case cmpl => intro s t h; cases h; rfl

/-! ### Frames and successors of the instructions -/

theorem exec_kept {i : Instr} {s t : State} (h : exec i s = .next t) : KeptBy i s t := by
  have hnext := exec_next h
  cases i with
  | start data len =>
    obtain ⟨-, rfl⟩ | ⟨-, rfl⟩ := hnext
    · exact ⟨rfl, rfl⟩
    · exact ⟨rfl, rfl⟩
  | idle => exact hnext
  | lane8 => obtain ⟨d, -, rfl⟩ := hnext; exact ⟨rfl, rfl⟩
  | combine => cases hnext; exact ⟨rfl, rfl, rfl, rfl, rfl, rfl⟩
  | half2 => obtain ⟨d, -, rfl⟩ := hnext; exact ⟨rfl, rfl, rfl⟩
  | odd1 => obtain ⟨d, -, rfl⟩ := hnext; exact ⟨rfl, rfl, rfl⟩
  | fold => cases hnext; exact ⟨rfl, rfl, rfl, rfl, rfl, rfl⟩
  | cmpl => cases hnext; exact ⟨rfl, rfl, rfl, rfl, rfl⟩
  | reserved7 => exact hnext

/-- Settles O31: no instruction writes memory, the turns or what was taken; the registers by each next state. -/
theorem instructionFrames : Obligations.InstructionFrames := by
  unfold Obligations.InstructionFrames
  intro i s t h
  obtain ⟨hmem, hturns, htaken⟩ := exec_keeps h
  exact ⟨fun a => by rw [hmem], hturns, htaken, exec_kept h⟩

theorem exec_successor {i : Instr} {s t : State} (h : exec i s = .next t) : SuccessorOf i s t := by
  have hnext := exec_next h
  cases i with
  | start data len =>
    intro hidle
    cases (exec_start_of_idle hidle data len).symm.trans h
    exact seqLane_cases len
  | idle => exact congrArg State.uop hnext
  | lane8 => obtain ⟨d, -, rfl⟩ := hnext; exact seqLane_cases _
  | combine => cases hnext; exact seqTail_codes _ _
  | half2 => obtain ⟨d, -, rfl⟩ := hnext; exact seqTail_codes _ _
  | odd1 => obtain ⟨d, -, rfl⟩ := hnext; exact seqFold_cases _
  | fold => cases hnext; exact seqFold_cases _
  | cmpl => cases hnext; rfl
  | reserved7 => exact hnext

/-- Settles O41: each next state's code is a value of the sequencing function its operation calls. -/
theorem successorTable : Obligations.SuccessorTable := by
  unfold Obligations.SuccessorTable
  exact fun _ _ _ => exec_successor

/-! ### What the sequencer's turn can do -/

/-- R51: the code of an operation is its word. -/
theorem encode_of_decodeUop {c : Code} {i : Instr} (h : decodeUop c = i) : encode i = .u c :=
  h ▸ encode_decodeUop c

theorem uop_of_decodeUop {c c' : Code} {i : Instr} (h : decodeUop c = i) (hi : encode i = .u c' := by rfl) : c = c' :=
  PortWord.u.inj ((encode_of_decodeUop h).symm.trans hi)

/-- R51: `START` has no code. -/
theorem decodeUop_ne_start (c : Code) (data len : Word) : decodeUop c ≠ .start data len :=
  fun h => PortWord.noConfusion (encode_of_decodeUop h)

theorem sequencerTurn_eq (s : State) : sequencerTurn s = exec (decodeUop s.uop) s := rfl

/-- The sequencer's move from a state, with the bytes a reading operation collects and what it adds for them (R68, R80
to R95). -/
inductive SequencerMove (s : State) : State → Prop
  | idle (huop : s.uop = 0b000#3) : SequencerMove s s
  | lane8 {lo hi : List Byte} {d : Word} (huop : s.uop = 0b001#3) (hlo : lo.length = 4) (hhi : hi.length = 4)
      (hread : Memory.collect s.mem (addresses s.cur 8) = .ok (lo ++ hi))
      (hlow : (laneLow d).toNat = leNat lo) (hhigh : (laneHigh d).toNat = leNat hi) :
      SequencerMove s (laneEffect d s)
  | combine (huop : s.uop = 0b010#3) :
      SequencerMove s (goTo (seqTail s.rem (s.sum + s.sum1)) (addToSum s.sum1 s))
  | half2 {b₀ b₁ : Byte} {d : Word} (huop : s.uop = 0b011#3)
      (hread : Memory.collect s.mem (addresses s.cur 2) = .ok [b₀, b₁])
      (hvalue : (halfOperand d).toNat = leNat [b₀, b₁]) : SequencerMove s (halfEffect d s)
  | odd1 {b : Byte} {d : Word} (huop : s.uop = 0b100#3)
      (hread : Memory.collect s.mem (addresses s.cur 1) = .ok [b])
      (hvalue : (oddOperand d).toNat = b.toNat) : SequencerMove s (oddEffect d s)
  | fold (huop : s.uop = 0b101#3) :
      SequencerMove s (goTo (seqFold (foldWord s.sum)) (setSum (foldWord s.sum) s))
  | cmpl (huop : s.uop = 0b110#3) : SequencerMove s (goTo 0b000#3 (deliver (complementLow s.sum) s))

theorem collect_length {m : Memory} {a : Word} {n : Nat} {bs : List Byte}
    (h : Memory.collect m (addresses a n) = .ok bs) : bs.length = n := by
  have hlen := congrArg List.length ((collect_eq_ok m _ bs).1 h)
  rw [List.length_map, List.length_map, addresses_length] at hlen
  exact hlen.symm

/-- An answered `LANE8` has read a chunk, whose two halves are the lanes it adds. -/
theorem sequencerMove_of_lane8 {s t : State} (huop : s.uop = 0b001#3) (h : exec .lane8 s = .next t) :
    SequencerMove s t := by
  obtain ⟨_, hd, -⟩ := exec_next h
  obtain ⟨bs, hbs, -⟩ := respond_ok hd
  have hlen : bs.length = 8 := collect_length hbs
  have hlo : (bs.take 4).length = 4 := by rw [List.length_take, hlen]; rfl
  have hhi : (bs.drop 4).length = 4 := by rw [List.length_drop, hlen]
  have hread : Memory.collect s.mem (addresses s.cur 8) = .ok (bs.take 4 ++ bs.drop 4) := by
    rw [List.take_append_drop]
    exact hbs
  obtain ⟨d, hexec, hlow, hhigh⟩ := exec_lane8_of_collect hlo hhi hread
  obtain rfl : t = laneEffect d s := Host.Outcome.next.inj (h.symm.trans hexec)
  exact .lane8 huop hlo hhi hread hlow hhigh

/-- An answered `HALF2` has read two bytes, whose little-endian value it adds. -/
theorem sequencerMove_of_half2 {s t : State} (huop : s.uop = 0b011#3) (h : exec .half2 s = .next t) :
    SequencerMove s t := by
  obtain ⟨_, hd, -⟩ := exec_next h
  obtain ⟨bs, hread, -⟩ := respond_ok hd
  obtain ⟨b₀, b₁, rfl⟩ := List.length_eq_two.1 (collect_length hread)
  obtain ⟨d, hexec, hvalue⟩ := exec_half2_of_collect hread
  obtain rfl : t = halfEffect d s := Host.Outcome.next.inj (h.symm.trans hexec)
  exact .half2 huop hread hvalue

/-- An answered `ODD1` has read one byte, which it adds. -/
theorem sequencerMove_of_odd1 {s t : State} (huop : s.uop = 0b100#3) (h : exec .odd1 s = .next t) :
    SequencerMove s t := by
  obtain ⟨_, hd, -⟩ := exec_next h
  obtain ⟨bs, hread, -⟩ := respond_ok hd
  obtain ⟨b, rfl⟩ := List.length_eq_one_iff.1 (collect_length hread)
  obtain ⟨d, hexec, hvalue⟩ := exec_odd1_of_collect hread
  obtain rfl : t = oddEffect d s := Host.Outcome.next.inj (h.symm.trans hexec)
  exact .odd1 huop hread hvalue

/-- Everything the sequencer's turn can do, said once. -/
theorem sequencerMove_of_exec {s t : State} (h : exec (decodeUop s.uop) s = .next t) : SequencerMove s t := by
  have hnext := exec_next h
  cases hi : decodeUop s.uop with
  | start data len => exact absurd hi (decodeUop_ne_start s.uop data len)
  | idle => rw [hi] at hnext; cases hnext; exact .idle (uop_of_decodeUop hi)
  | lane8 => rw [hi] at h; exact sequencerMove_of_lane8 (uop_of_decodeUop hi) h
  | combine => rw [hi] at hnext; cases hnext; exact .combine (uop_of_decodeUop hi)
  | half2 => rw [hi] at h; exact sequencerMove_of_half2 (uop_of_decodeUop hi) h
  | odd1 => rw [hi] at h; exact sequencerMove_of_odd1 (uop_of_decodeUop hi) h
  | fold => rw [hi] at hnext; cases hnext; exact .fold (uop_of_decodeUop hi)
  | cmpl => rw [hi] at hnext; cases hnext; exact .cmpl (uop_of_decodeUop hi)
  | reserved7 => rw [hi] at hnext; exact hnext.elim

/-- The sequencer moves on the state with its turn used up. -/
theorem sequencerMove_of_step {s t : State} (hseq : SequencerNext s) (h : step s = .next t) :
    SequencerMove (setTurns s.turns.tail s) t :=
  sequencerMove_of_exec (s := setTurns s.turns.tail s) ((step_of_sequencerNext hseq).symm.trans h)

/-- R17, R19: of the sequencer's operations `CMPL` alone writes `valid` and `result`. -/
theorem SequencerMove.valid_result {s t : State} (h : SequencerMove s t) :
    (s.uop = 6#3 ∧ t.valid = true) ∨ (t.valid = s.valid ∧ t.result = s.result) := by
  cases h with
  | cmpl huop => exact .inl ⟨huop, rfl⟩
  | idle => exact .inr ⟨rfl, rfl⟩
  | lane8 => exact .inr ⟨rfl, rfl⟩
  | combine => exact .inr ⟨rfl, rfl⟩
  | half2 => exact .inr ⟨rfl, rfl⟩
  | odd1 => exact .inr ⟨rfl, rfl⟩
  | fold => exact .inr ⟨rfl, rfl⟩

/-! ### The reserved code is never written -/

theorem seqLane_ne_reserved (r : Word) : seqLane r ≠ 7#3 := by
  rcases seqLane_cases r with h | h <;> rw [h] <;> decide

theorem seqFold_ne_reserved (v : Word) : seqFold v ≠ 7#3 := by
  rcases seqFold_cases v with h | h <;> rw [h] <;> decide

theorem seqTail_ne_reserved (r v : Word) : seqTail r v ≠ 7#3 := by
  rcases seqTail_cases r v with h | h | h
  · rw [h]; decide
  · rw [h]; decide
  · rw [h]; exact seqFold_ne_reserved v

/-- R57: no operation of the sequencer writes the reserved code. -/
theorem SequencerMove.ne_reserved {s t : State} (h : SequencerMove s t) : t.uop ≠ 7#3 := by
  cases h with
  | idle huop => rw [huop]; decide
  | lane8 => exact seqLane_ne_reserved _
  | combine => exact seqTail_ne_reserved _ _
  | half2 => exact seqTail_ne_reserved _ _
  | odd1 => exact seqFold_ne_reserved _
  | fold => exact seqFold_ne_reserved _
  | cmpl => rw [goTo_uop]; decide

/-! ### What the host's turn can do -/

/-- R103: a host turn that goes on is the reset, an accepted `START`, or leaves all but `taken` as it was. -/
theorem hostTurn_next {pins : HostPins} {s t : State} (h : hostTurn pins s = .next t) :
    (pins.reset = true ∧ t = resetBlock s) ∨
    (pins.reset = false ∧ startBit pins.command = true ∧ s.uop = 0b000#3 ∧ ∃ u data len,
      (u = s ∨ u = keepTaken s.result s) ∧ t = goTo (seqLane len) (beginCall data len u)) ∨
    (pins.reset = false ∧ (t = s ∨ t = keepTaken s.result s ∧ s.valid = true)) := by
  rcases hostTurn_cases pins s with ⟨hr, hreset⟩ | ⟨_, _, _, hrefused⟩ | ⟨hr, u, hu, hcommand⟩
  · cases hreset.symm.trans h
    exact .inl ⟨hr, rfl⟩
  · cases hrefused.symm.trans h
  · rcases hcommand with ⟨hbit, hidle, hstart⟩ | ⟨-, hnothing⟩
    · cases hstart.symm.trans h
      exact .inr (.inl ⟨hr, hbit, hidle, u, _, _, hu.imp And.left And.left, rfl⟩)
    · cases hnothing.symm.trans h
      exact .inr (.inr ⟨hr, hu.imp And.left fun hkept => ⟨hkept.1, hkept.2.2⟩⟩)

theorem hostTurn_not_fault {pins : HostPins} {s : State} {f : Fault} : hostTurn pins s ≠ .fault f := by
  intro h
  rcases hostTurn_cases pins s with ⟨_, hreset⟩ | ⟨_, _, _, hrefused⟩ | ⟨_, u, _, ⟨_, _, hstart⟩ | ⟨_, hnothing⟩⟩
  · cases hreset.symm.trans h
  · cases hrefused.symm.trans h
  · cases hstart.symm.trans h
  · cases hnothing.symm.trans h

theorem hostTurn_refused {pins : HostPins} {s : State} {r : Refusal} (h : hostTurn pins s = .refused r) :
    r = .resultNotValid ∧ s.valid = false ∧ pins.read = true ∧ pins.reset = false := by
  rcases hostTurn_cases pins s with
    ⟨_, hreset⟩ | ⟨hr, hd, hv, hrefused⟩ | ⟨_, u, _, ⟨_, _, hstart⟩ | ⟨_, hnothing⟩⟩
  · cases hreset.symm.trans h
  · cases hrefused.symm.trans h
    exact ⟨rfl, hv, hd, hr⟩
  · cases hstart.symm.trans h
  · cases hnothing.symm.trans h

/-- R57: no host turn writes the reserved code. -/
theorem hostTurn_not_reserved {pins : HostPins} {s t : State} (h : hostTurn pins s = .next t) (hs : s.uop ≠ 7#3) :
    t.uop ≠ 7#3 := by
  rcases hostTurn_next h with ⟨-, rfl⟩ | ⟨-, -, -, u, data, len, -, rfl⟩ | ⟨-, rfl | ⟨rfl, -⟩⟩
  · rw [resetBlock_uop]
    decide
  · exact seqLane_ne_reserved len
  · exact hs
  · exact hs

/-- Settles O8: the reserved code is refused by its arm and written by neither agent; a word that is no command, or
comes while busy, has no effect. -/
theorem reservedEncodings : Obligations.ReservedEncodings := by
  unfold Obligations.ReservedEncodings
  refine ⟨fun s h => ?refused, fun s t h hs => ?written, fun _ r _ => size_code_ne_two r.size,
    fun s w hw => runWord_command_of_not_start hw s, fun s w _ hbusy => ?busy⟩
  case refused =>
    have hop : decodeUop s.uop = .reserved7 := congrArg decodeUop h
    rw [sequencerTurn_eq, hop, reservedCodeRefused]
  case written =>
    rcases sequencerNext_or_hostNext s with hseq | ⟨pins, rest, hhost⟩
    · exact (sequencerMove_of_step hseq h).ne_reserved
    · exact hostTurn_not_reserved ((step_of_hostNext hhost).symm.trans h) hs
  case busy =>
    exact runWord_command_of_busy (mt (ready_iff_uop_idle s).2 (ne_true_of_eq_false hbusy)) w

/-- Settles O40: of the sequencer's operations only `CMPL` touches `valid` and `result`; of the host's turns only the
reset and an accepted `START` clear `valid`, and only the reset touches `result`. -/
theorem validAndResultWriters : Obligations.ValidAndResultWriters := by
  unfold Obligations.ValidAndResultWriters
  intro s t h
  rcases sequencerNext_or_hostNext s with hseq | ⟨pins, rest, hhost⟩
  · rcases (sequencerMove_of_step hseq h).valid_result with ⟨huop, hvalid⟩ | ⟨hvalid, hresult⟩
    · exact ⟨fun _ _ => ⟨hseq, huop⟩, fun _ hclear => absurd hclear (ne_false_of_eq_true hvalid),
        fun _ => .inl ⟨hseq, huop⟩⟩
    · rw [setTurns_valid] at hvalid
      refine ⟨fun hs ht => ?_, fun hs ht => ?_, fun hne => absurd hresult hne⟩
      · exact absurd (hs.symm.trans (hvalid.symm.trans ht)) Bool.false_ne_true
      · exact absurd (ht.symm.trans (hvalid.trans hs)) Bool.false_ne_true
  · have hturn := (step_of_hostNext hhost).symm.trans h
    rcases hostTurn_next hturn with ⟨hr, rfl⟩ | ⟨-, hbit, hidle, u, data, len, hu, rfl⟩ | ⟨-, hkept⟩
    · exact ⟨fun _ ht => absurd ht Bool.false_ne_true, fun _ _ => ⟨pins, rest, hhost, .inl hr⟩,
        fun _ => .inr ⟨pins, rest, hhost, hr⟩⟩
    · have hresult : u.result = s.result := by rcases hu with rfl | rfl <;> rfl
      exact ⟨fun _ ht => absurd ht Bool.false_ne_true, fun _ _ => ⟨pins, rest, hhost, .inr ⟨hidle, hbit⟩⟩,
        fun hne => absurd hresult hne⟩
    · have hvalid : t.valid = s.valid := by rcases hkept with rfl | ⟨rfl, -⟩ <;> rfl
      have hresult : t.result = s.result := by rcases hkept with rfl | ⟨rfl, -⟩ <;> rfl
      refine ⟨fun hs ht => ?_, fun hs ht => ?_, fun hne => absurd hresult hne⟩
      · exact absurd (hs.symm.trans (hvalid.symm.trans ht)) Bool.false_ne_true
      · exact absurd (ht.symm.trans (hvalid.trans hs)) Bool.false_ne_true

/-- Settles O42: a call in progress has `valid = 0`, so a read is refused, and `ready = 0`, so a command is held. -/
theorem onlyResetDisturbsCall : Obligations.OnlyResetDisturbsCall := by
  unfold Obligations.OnlyResetDisturbsCall
  intro s pins hinv hbusy hreset
  have hvalid : s.valid = false := Bool.eq_false_iff.2 (mt hinv.validIdle hbusy)
  exact ⟨fun hread => hostTurn_of_refused_read hreset hread hvalid,
    fun hread => (hostTurn_of_no_read hreset hread s).trans (runWord_command_of_busy hbusy _)⟩

/-! ### The outcomes -/

/-- R41: a read that stops has met an unreadable byte. -/
theorem withRead_fault_unreadable {size : MemSize} {s : State} {k : Word → State} {f : Fault}
    (h : withRead size s k = .fault f) : ∃ a, f = .unreadableByte a ∧ Memory.readAt s.mem a = none := by
  obtain ⟨a, -, rfl⟩ := withRead_fault h
  obtain ⟨-, hnone, -⟩ := withRead_fault_iff.1 h
  exact ⟨a, rfl, hnone⟩

theorem exec_fault {i : Instr} {s : State} {f : Fault} (h : exec i s = .fault f) :
    (i = .lane8 ∨ i = .half2 ∨ i = .odd1) ∧ ∃ a, f = .unreadableByte a ∧ Memory.readAt s.mem a = none := by
  cases i with
  | start data len =>
    simp only [exec, execStart] at h
    split at h <;> cases h
  | idle => cases h
  | lane8 => exact ⟨.inl rfl, withRead_fault_unreadable h⟩
  | combine => cases h
  | half2 => exact ⟨.inr (.inl rfl), withRead_fault_unreadable h⟩
  | odd1 => exact ⟨.inr (.inr rfl), withRead_fault_unreadable h⟩
  | fold => cases h
  | cmpl => cases h
  | reserved7 => cases h

theorem exec_refused {i : Instr} {s : State} {r : Refusal} (h : exec i s = .refused r) :
    i = .reserved7 ∧ r = .reservedUop := by
  cases i with
  | start data len =>
    simp only [exec, execStart] at h
    split at h <;> cases h
  | idle => cases h
  | lane8 => exact absurd h withRead_not_refused
  | combine => cases h
  | half2 => exact absurd h withRead_not_refused
  | odd1 => exact absurd h withRead_not_refused
  | fold => cases h
  | cmpl => cases h
  | reserved7 => cases h; exact ⟨rfl, rfl⟩

/-- Settles O32: an instruction stops as one of the three reads or as the reserved code; a step is an instruction's or
a host turn's, which never faults and refuses only the read. -/
theorem onlyListedOutcomes : Obligations.OnlyListedOutcomes := by
  unfold Obligations.OnlyListedOutcomes
  refine ⟨fun i s f => exec_fault, fun i s r => exec_refused, fun i s r hwf h => ?wellFormed, fun s f h => ?fault,
    fun s r h => ?refusal⟩
  case wellFormed =>
    obtain ⟨rfl, -⟩ := exec_refused h
    cases hwf
  case fault =>
    rcases sequencerNext_or_hostNext s with hseq | ⟨pins, rest, hhost⟩
    · obtain ⟨hi, hbyte⟩ := exec_fault ((step_of_sequencerNext hseq).symm.trans h)
      exact ⟨hseq, hi.imp uop_of_decodeUop (Or.imp uop_of_decodeUop uop_of_decodeUop), hbyte⟩
    · exact absurd ((step_of_hostNext hhost).symm.trans h) hostTurn_not_fault
  case refusal =>
    rcases sequencerNext_or_hostNext s with hseq | ⟨pins, rest, hhost⟩
    · obtain ⟨hi, hr⟩ := exec_refused ((step_of_sequencerNext hseq).symm.trans h)
      exact .inl ⟨hr, hseq, uop_of_decodeUop hi⟩
    · obtain ⟨hr, hvalid, hread, hreset⟩ := hostTurn_refused ((step_of_hostNext hhost).symm.trans h)
      exact .inr ⟨hr, hvalid, pins, rest, hhost, hread, hreset⟩

end Sys2Proof.Machine
end

section
/-! PROOFS. The facts of a call (10_state.md R24): they hold at reset, at an accepted `START` and after every step. -/

namespace Sys2Proof.Machine

/-! ### What each sequencing function establishes -/

/-- The items of R24 on `HALF2`, `ODD1`, `FOLD` and `CMPL`, which both forms of the facts share. -/
structure TailFacts (s : State) : Prop where
  half : s.uop = 0b011#3 → 2 ≤ s.rem.toNat ∧ s.rem.toNat ≤ 7
  odd : s.uop = 0b100#3 → s.rem.toNat = 1
  foldDone : s.uop = 0b101#3 → s.rem.toNat = 0 ∧ 2 ^ 16 ≤ s.sum.toNat
  complement : s.uop = 0b110#3 → s.rem.toNat = 0 ∧ s.sum.toNat < 2 ^ 16

theorem tailFacts_of_seqLane {s : State} (huop : s.uop = seqLane s.rem) : TailFacts s := by
  rcases seqLane_cases s.rem with h | h <;> rw [h] at huop <;>
    exact ⟨by simp [huop], by simp [huop], by simp [huop], by simp [huop]⟩

theorem tailFacts_of_seqTail {s : State} (huop : s.uop = seqTail s.rem s.sum) (hrem : s.rem.toNat < 8) :
    TailFacts s := by
  by_cases h2 : 2 ≤ s.rem.toNat
  · rw [seqTail_of_le h2] at huop
    exact ⟨fun _ => ⟨h2, by omega⟩, by simp [huop], by simp [huop], by simp [huop]⟩
  by_cases h1 : s.rem.toNat = 1
  · rw [seqTail_of_one h1] at huop
    exact ⟨by simp [huop], fun _ => h1, by simp [huop], by simp [huop]⟩
  have h0 : s.rem.toNat = 0 := by omega
  rw [seqTail_of_zero h0] at huop
  by_cases hsum : 2 ^ 16 ≤ s.sum.toNat
  · rw [seqFold_of_le hsum] at huop
    exact ⟨by simp [huop], by simp [huop], fun _ => ⟨h0, hsum⟩, by simp [huop]⟩
  · rw [seqFold_of_lt (Nat.not_le.1 hsum)] at huop
    exact ⟨by simp [huop], by simp [huop], by simp [huop], fun _ => ⟨h0, Nat.not_le.1 hsum⟩⟩

theorem seqTail_ne_idle (r v : Word) : seqTail r v ≠ 0b000#3 := by
  rcases seqTail_codes r v with h | h | h | h <;> rw [h] <;> decide

theorem seqTail_ne_lane8 (r v : Word) : seqTail r v ≠ 0b001#3 := by
  rcases seqTail_codes r v with h | h | h | h <;> rw [h] <;> decide

theorem seqTail_ne_combine (r v : Word) : seqTail r v ≠ 0b010#3 := by
  rcases seqTail_codes r v with h | h | h | h <;> rw [h] <;> decide

/-! ### The facts that speak of the state alone -/

theorem CallInv.of_idle {s : State} (hmem : s.mem.wf = true) (huop : s.uop = 0b000#3) : CallInv s where
  memory := hmem
  notReserved := by simp [huop]
  validIdle := fun _ => huop
  lane := by simp [huop]
  combine := by simp [huop]
  half := by simp [huop]
  odd := by simp [huop]
  foldDone := by simp [huop]
  complement := by simp [huop]

theorem lane_of_seqLane {r : Word} (h : seqLane r = 0b001#3) : 8 ≤ r.toNat := by
  by_contra hlt
  rw [seqLane_of_lt (Nat.not_le.1 hlt)] at h
  exact absurd h (by decide)

theorem combine_of_seqLane {r : Word} (h : seqLane r = 0b010#3) : r.toNat < 8 := by
  by_contra hle
  rw [seqLane_of_le (Nat.not_lt.1 hle)] at h
  exact absurd h (by decide)

theorem CallInv.of_seqLane {s : State} (hmem : s.mem.wf = true) (hvalid : s.valid = false)
    (huop : s.uop = seqLane s.rem) : CallInv s where
  memory := hmem
  notReserved := huop ▸ seqLane_ne_reserved s.rem
  validIdle := by simp [hvalid]
  lane := fun h => lane_of_seqLane (huop.symm.trans h)
  combine := fun h => combine_of_seqLane (huop.symm.trans h)
  half := (tailFacts_of_seqLane huop).half
  odd := (tailFacts_of_seqLane huop).odd
  foldDone := (tailFacts_of_seqLane huop).foldDone
  complement := (tailFacts_of_seqLane huop).complement

theorem CallInv.of_seqTail {s : State} (hmem : s.mem.wf = true) (hvalid : s.valid = false)
    (huop : s.uop = seqTail s.rem s.sum) (hrem : s.rem.toNat < 8) : CallInv s where
  memory := hmem
  notReserved := huop ▸ seqTail_ne_reserved s.rem s.sum
  validIdle := by simp [hvalid]
  lane := fun h => absurd (huop.symm.trans h) (seqTail_ne_lane8 s.rem s.sum)
  combine := fun h => absurd (huop.symm.trans h) (seqTail_ne_combine s.rem s.sum)
  half := (tailFacts_of_seqTail huop hrem).half
  odd := (tailFacts_of_seqTail huop hrem).odd
  foldDone := (tailFacts_of_seqTail huop hrem).foldDone
  complement := (tailFacts_of_seqTail huop hrem).complement

theorem CallInv.not_valid {s : State} (h : CallInv s) (hbusy : s.uop ≠ 0b000#3) : s.valid = false :=
  Bool.eq_false_iff.2 (mt h.validIdle hbusy)

/-- The facts say nothing of the turns to come. -/
theorem CallInv.setTurns {s : State} (h : CallInv s) (rest : List Turn) : CallInv (setTurns rest s) :=
  ⟨h.memory, h.notReserved, h.validIdle, h.lane, h.combine, h.half, h.odd, h.foldDone, h.complement⟩

/-- The facts say nothing of what the host has taken. -/
theorem CallInv.keepTaken {s : State} (h : CallInv s) (r : Digest) : CallInv (keepTaken r s) :=
  ⟨h.memory, h.notReserved, h.validIdle, h.lane, h.combine, h.half, h.odd, h.foldDone, h.complement⟩

/-- A code other than `IDLE` is that of a call in progress. -/
theorem uop_ne_idle {s : State} {c : Code} (h : s.uop = c) (hc : c ≠ 0b000#3 := by decide) : s.uop ≠ 0b000#3 :=
  h ▸ hc

/-- Each operation leaves what its sequencing function asks for: `LANE8` a `rem` that `seqLane` looks at; the others,
up to `CMPL`, fewer than 8 bytes and the code of `seqTail`, which with nothing left is that of `seqFold`. -/
theorem SequencerMove.callInv {s t : State} (h : SequencerMove s t) (inv : CallInv s) : CallInv t := by
  cases h with
  | idle => exact inv
  | lane8 huop => exact .of_seqLane inv.memory (inv.not_valid (uop_ne_idle huop)) rfl
  | combine huop => exact .of_seqTail inv.memory (inv.not_valid (uop_ne_idle huop)) rfl (inv.combine huop)
  | half2 huop =>
    obtain ⟨hge, hle⟩ := inv.half huop
    refine .of_seqTail inv.memory (inv.not_valid (uop_ne_idle huop)) rfl ?_
    rw [halfEffect_rem, remAfter_toNat hge]
    omega
  | @odd1 _ d huop =>
    have hrem := inv.odd huop
    have hzero : (oddEffect d s).rem.toNat = 0 := by rw [oddEffect_rem, remAfter_toNat hrem.ge, hrem]
    exact .of_seqTail inv.memory (inv.not_valid (uop_ne_idle huop)) (seqTail_of_zero hzero _).symm (by omega)
  | fold huop =>
    obtain ⟨hzero, -⟩ := inv.foldDone huop
    refine .of_seqTail inv.memory (inv.not_valid (uop_ne_idle huop)) (seqTail_of_zero hzero _).symm ?_
    exact hzero.trans_lt (by decide)
  | cmpl => exact .of_idle inv.memory rfl

/-- A host turn resets, begins a call from `IDLE`, or leaves what the facts speak of. -/
theorem hostTurn_callInv {pins : HostPins} {s t : State} (h : hostTurn pins s = .next t) (inv : CallInv s) :
    CallInv t := by
  rcases hostTurn_next h with ⟨-, rfl⟩ | ⟨-, -, -, u, data, len, hu, rfl⟩ | ⟨-, rfl | ⟨rfl, -⟩⟩
  · exact .of_idle inv.memory rfl
  · have humem : u.mem = s.mem := by rcases hu with rfl | rfl <;> rfl
    exact .of_seqLane (humem ▸ inv.memory) rfl rfl
  · exact inv
  · exact inv.keepTaken _

/-- Settles O36: reset is `IDLE` over an empty memory. -/
theorem callInvariantAtReset : Obligations.CallInvariantAtReset := by
  unfold Obligations.CallInvariantAtReset
  exact .of_idle reset_mem_wf rfl

/-- Settles O35: by the agent that moves, and for the sequencer by its operation. -/
theorem callInvariantKept : Obligations.CallInvariantKept := by
  unfold Obligations.CallInvariantKept
  intro s t inv h
  rcases sequencerNext_or_hostNext s with hseq | ⟨pins, rest, hhost⟩
  · exact (sequencerMove_of_step hseq h).callInv (inv.setTurns _)
  · exact hostTurn_callInv ((step_of_hostNext hhost).symm.trans h) (inv.setTurns rest)

/-! ### The cursor and the remaining length -/

/-- R13, R14: what `advance` adds to `cur` it takes from `rem`. -/
theorem cur_add_remAfter {n : Nat} {s : State} (h : n ≤ s.rem.toNat) :
    s.cur + BitVec.ofNat 64 n + remAfter n s = s.cur + s.rem := by
  rw [remAfter, if_pos h]
  ring

theorem remAfter_le {n : Nat} {s : State} (h : n ≤ s.rem.toNat) : (remAfter n s).toNat ≤ s.rem.toNat :=
  (remAfter_toNat h).trans_le (Nat.sub_le _ _)

theorem SequencerMove.cursor {s t : State} (h : SequencerMove s t) (inv : CallInv s) :
    t.cur + t.rem = s.cur + s.rem ∧ t.rem.toNat ≤ s.rem.toNat ∧ t.draws = s.draws := by
  cases h with
  | idle => exact ⟨rfl, le_rfl, rfl⟩
  | lane8 huop =>
    have hle := inv.lane huop
    exact ⟨cur_add_remAfter hle, remAfter_le hle, drawsAfter_of_le hle⟩
  | combine => exact ⟨rfl, le_rfl, rfl⟩
  | half2 huop =>
    obtain ⟨hle, -⟩ := inv.half huop
    exact ⟨cur_add_remAfter hle, remAfter_le hle, drawsAfter_of_le hle⟩
  | odd1 huop =>
    have hle := (inv.odd huop).ge
    exact ⟨cur_add_remAfter hle, remAfter_le hle, drawsAfter_of_le hle⟩
  | fold => exact ⟨rfl, le_rfl, rfl⟩
  | cmpl => exact ⟨rfl, le_rfl, rfl⟩

/-- Settles O39: R24 gives the reading operations the bytes they count down. -/
theorem cursorTracksRemaining : Obligations.CursorTracksRemaining := by
  unfold Obligations.CursorTracksRemaining
  exact fun s t inv hseq h => (sequencerMove_of_step hseq h).cursor (inv.setTurns _)

/-! ### The facts of one call -/

theorem collect_append {m : Memory} {as as' : List Word} {bs bs' : List Byte} (h : Memory.collect m as = .ok bs)
    (h' : Memory.collect m as' = .ok bs') : Memory.collect m (as ++ as') = .ok (bs ++ bs') := by
  rw [collect_eq_ok, List.map_append, List.map_append, (collect_eq_ok m as bs).1 h, (collect_eq_ok m as' bs').1 h']

theorem region_eq_some {m : Memory} {a : Word} {n : Nat} {b : List Byte} :
    Memory.region m a n = some b ↔ Memory.collect m (addresses a n) = .ok b := by
  unfold Memory.region
  cases Memory.collect m (addresses a n) <;> simp [Except.toOption]

/-- How far a call has read: the items of R24 that tie `rem`, `cur` and the bytes read to `data` and `len`. -/
structure ReadSoFar (data len : Word) (b : List Byte) (s : State) : Prop where
  remaining : s.rem.toNat ≤ len.toNat
  cursor : s.cur.toNat = (data.toNat + (len.toNat - s.rem.toNat)) % 2 ^ 64
  bytesRead : Memory.region s.mem data (len.toNat - s.rem.toNat) = some b

theorem ReadSoFar.length {data len : Word} {b : List Byte} {s : State} (h : ReadSoFar data len b s) :
    b.length = len.toNat - s.rem.toNat :=
  collect_length (region_eq_some.1 h.bytesRead)

theorem ReadSoFar.cur_eq {data len : Word} {b : List Byte} {s : State} (h : ReadSoFar data len b s) :
    s.cur = data + BitVec.ofNat 64 (len.toNat - s.rem.toNat) := by
  apply BitVec.eq_of_toNat_eq
  rw [BitVec.toNat_add, BitVec.toNat_ofNat, h.cursor, Nat.add_mod_mod]

/-- A read of `n` bytes at `cur`, counted off `rem`, carries the bytes read so far on by those. -/
theorem ReadSoFar.advance {data len : Word} {b bs : List Byte} {n : Nat} {s t : State} (h : ReadSoFar data len b s)
    (hread : Memory.collect s.mem (addresses s.cur n) = .ok bs) (hn : n ≤ s.rem.toNat) (hmem : t.mem = s.mem)
    (hcur : t.cur = s.cur + BitVec.ofNat 64 n) (hrem : t.rem = remAfter n s) : ReadSoFar data len (b ++ bs) t := by
  have hat := h.cur_eq
  obtain ⟨hle, hcursor, hbytes⟩ := h
  have hrem' : t.rem.toNat = s.rem.toNat - n := hrem ▸ remAfter_toNat hn
  refine ⟨by omega, ?_, ?_⟩
  · rw [hcur, BitVec.toNat_add, BitVec.toNat_ofNat, hcursor, hrem']
    omega
  · rw [hmem, hrem', show len.toNat - (s.rem.toNat - n) = len.toNat - s.rem.toNat + n by omega, region_eq_some,
      addresses_append, ← hat]
    exact collect_append (region_eq_some.1 hbytes) hread

/-- A move that leaves `rem`, `cur` and memory reads nothing more. -/
theorem ReadSoFar.keep {data len : Word} {b : List Byte} {s t : State} (h : ReadSoFar data len b s)
    (hmem : t.mem = s.mem) (hcur : t.cur = s.cur) (hrem : t.rem = s.rem) : ReadSoFar data len b t :=
  ⟨hrem ▸ h.remaining, by rw [hcur, hrem]; exact h.cursor, by rw [hmem, hrem]; exact h.bytesRead⟩

theorem CallFacts.readSoFar {data len : Word} {b : List Byte} {s : State} (h : CallFacts data len b s) :
    ReadSoFar data len b s :=
  ⟨h.remaining, h.cursor, h.bytesRead⟩

theorem CallFacts.of_seqLane {data len : Word} {b : List Byte} {s : State} (hread : ReadSoFar data len b s)
    (hvalid : s.valid = false) (huop : s.uop = seqLane s.rem) (hmod : s.rem.toNat % 8 = len.toNat % 8)
    (hsums : HoldsLaneSums b s) : CallFacts data len b s where
  inProgress := ⟨huop ▸ seqLane_ne_idle s.rem, huop ▸ seqLane_ne_reserved s.rem, hvalid⟩
  remaining := hread.remaining
  cursor := hread.cursor
  bytesRead := hread.bytesRead
  lane := fun h => ⟨lane_of_seqLane (huop.symm.trans h), hmod, hsums⟩
  combine := fun h => by
    have hlt := combine_of_seqLane (huop.symm.trans h)
    exact ⟨by omega, hsums⟩
  half := (tailFacts_of_seqLane huop).half
  odd := (tailFacts_of_seqLane huop).odd
  foldDone := (tailFacts_of_seqLane huop).foldDone
  complement := (tailFacts_of_seqLane huop).complement

theorem CallFacts.of_seqTail {data len : Word} {b : List Byte} {s : State} (hread : ReadSoFar data len b s)
    (hvalid : s.valid = false) (huop : s.uop = seqTail s.rem s.sum) (hrem : s.rem.toNat < 8) :
    CallFacts data len b s where
  inProgress := ⟨huop ▸ seqTail_ne_idle s.rem s.sum, huop ▸ seqTail_ne_reserved s.rem s.sum, hvalid⟩
  remaining := hread.remaining
  cursor := hread.cursor
  bytesRead := hread.bytesRead
  lane := fun h => absurd (huop.symm.trans h) (seqTail_ne_lane8 s.rem s.sum)
  combine := fun h => absurd (huop.symm.trans h) (seqTail_ne_combine s.rem s.sum)
  half := (tailFacts_of_seqTail huop hrem).half
  odd := (tailFacts_of_seqTail huop hrem).odd
  foldDone := (tailFacts_of_seqTail huop hrem).foldDone
  complement := (tailFacts_of_seqTail huop hrem).complement

/-- The facts of a call say nothing of the turns to come. -/
theorem CallFacts.setTurns {data len : Word} {b : List Byte} {s : State} (h : CallFacts data len b s)
    (rest : List Turn) : CallFacts data len b (setTurns rest s) :=
  ⟨h.inProgress, h.remaining, h.cursor, h.bytesRead, h.lane, h.combine, h.half, h.odd, h.foldDone, h.complement⟩

theorem CallFacts.not_valid {data len : Word} {b : List Byte} {s : State} (h : CallFacts data len b s) :
    s.valid = false := by
  obtain ⟨-, -, hvalid⟩ := h.inProgress
  exact hvalid

theorem CallFacts.busy {data len : Word} {b : List Byte} {s : State} (h : CallFacts data len b s) :
    s.uop ≠ 0b000#3 := by
  obtain ⟨hbusy, -, -⟩ := h.inProgress
  exact hbusy

/-- The lanes of one chunk. -/
theorem lanes_of_halves {lo hi : List Byte} (hlo : lo.length = 4) (hhi : hi.length = 4) :
    lowLanes (lo ++ hi) = leNat lo ∧ highLanes (lo ++ hi) = leNat hi := by
  match lo, hlo, hi, hhi with
  | [a0, a1, a2, a3], _, [a4, a5, a6, a7], _ => exact ⟨rfl, rfl⟩

/-- R80: `LANE8` carries both lane sums on by its chunk. -/
theorem HoldsLaneSums.laneEffect {b lo hi : List Byte} {d : Word} {s : State} (h : HoldsLaneSums b s)
    (hb : b.length % 8 = 0) (hlo : lo.length = 4) (hhi : hi.length = 4) (hlow : (laneLow d).toNat = leNat lo)
    (hhigh : (laneHigh d).toNat = leNat hi) : HoldsLaneSums (b ++ (lo ++ hi)) (laneEffect d s) := by
  obtain ⟨hsum, hsum1⟩ := h
  obtain ⟨hlowApp, hhighApp, -⟩ := lanes_append b hb (lo ++ hi)
  obtain ⟨hl, hh⟩ := lanes_of_halves hlo hhi
  constructor
  · rw [laneEffect_sum, BitVec.toNat_add, hsum, hlow, hlowApp, hl, Nat.mod_add_mod]
  · rw [laneEffect_sum1, BitVec.toNat_add, hsum1, hhigh, hhighApp, hh, Nat.mod_add_mod]

/-- R24 for one operation of the sequencer: until `CMPL` ends the call, its facts hold for the bytes read by then. -/
theorem SequencerMove.callFacts {data len : Word} {b : List Byte} {s t : State} (h : SequencerMove s t)
    (facts : CallFacts data len b s) :
    (∃ more, CallFacts data len (b ++ more) t) ∨ (s.uop = 0b110#3 ∧ CallEnded t) := by
  have hread := facts.readSoFar
  have hvalid := facts.not_valid
  cases h with
  | idle huop => exact absurd huop facts.busy
  | lane8 huop hlo hhi hbytes hlow hhigh =>
    obtain ⟨hle, hmod, hsums⟩ := facts.lane huop
    have hlen := hread.length
    have hremLe := hread.remaining
    refine .inl ⟨_, .of_seqLane (hread.advance hbytes hle rfl rfl rfl) hvalid rfl ?_
      (hsums.laneEffect (by omega) hlo hhi hlow hhigh)⟩
    rw [laneEffect_rem, remAfter_toNat hle]
    omega
  | combine huop =>
    obtain ⟨hrem, -⟩ := facts.combine huop
    exact .inl ⟨[], .of_seqTail (by rw [List.append_nil]; exact hread.keep rfl rfl rfl) hvalid rfl
      (hrem.trans_lt (Nat.mod_lt _ (by decide)))⟩
  | half2 huop hbytes =>
    obtain ⟨hge, hle⟩ := facts.half huop
    refine .inl ⟨_, .of_seqTail (hread.advance hbytes hge rfl rfl rfl) hvalid rfl ?_⟩
    rw [halfEffect_rem, remAfter_toNat hge]
    omega
  | @odd1 _ d huop hbytes =>
    have hrem := facts.odd huop
    have hzero : (oddEffect d s).rem.toNat = 0 := by rw [oddEffect_rem, remAfter_toNat hrem.ge, hrem]
    exact .inl ⟨_, .of_seqTail (hread.advance hbytes hrem.ge rfl rfl rfl) hvalid (seqTail_of_zero hzero _).symm
      (by omega)⟩
  | fold huop =>
    obtain ⟨hzero, -⟩ := facts.foldDone huop
    exact .inl ⟨[], .of_seqTail (by rw [List.append_nil]; exact hread.keep rfl rfl rfl) hvalid
      (seqTail_of_zero hzero _).symm (hzero.trans_lt (by decide))⟩
  | cmpl huop => exact .inr ⟨huop, rfl, rfl⟩

/-- Settles O37: the sequencer's operations by `SequencerMove.callFacts`; of the host's turns a call in progress admits
the reset and those that leave the block as it is. -/
theorem callFactsKept : Obligations.CallFactsKept := by
  unfold Obligations.CallFactsKept
  intro data len b s t facts h
  rcases sequencerNext_or_hostNext s with hseq | ⟨pins, rest, hhost⟩
  · rcases (sequencerMove_of_step hseq h).callFacts (facts.setTurns _) with hmore | ⟨huop, hended⟩
    · exact .inl hmore
    · exact .inr (.inl ⟨hseq, huop, hended⟩)
  · rcases hostTurn_next ((step_of_hostNext hhost).symm.trans h) with
      ⟨hreset, rfl⟩ | ⟨-, -, hidle, -⟩ | ⟨-, rfl | ⟨-, hvalid⟩⟩
    · exact .inr (.inr ⟨pins, rest, hhost, hreset, rfl, rfl⟩)
    · exact absurd hidle facts.busy
    · exact .inl ⟨[], by rw [List.append_nil]; exact facts.setTurns rest⟩
    · exact absurd hvalid (ne_true_of_eq_false facts.not_valid)

/-- Settles O38: the accepted command has read nothing, holds both sums at 0 and takes the code of `seqLane`. -/
theorem startEstablishesCallFacts : Obligations.StartEstablishesCallFacts := by
  unfold Obligations.StartEstablishesCallFacts
  intro s data len hidle
  refine ⟨_, exec_start_of_idle hidle data len, .of_seqLane ⟨le_rfl, ?cursor, ?bytes⟩ rfl rfl rfl ⟨rfl, rfl⟩⟩
  case cursor =>
    rw [goTo_cur, beginCall_cur, goTo_rem, beginCall_rem, Nat.sub_self, Nat.add_zero, Nat.mod_eq_of_lt data.isLt]
  case bytes =>
    rw [goTo_rem, beginCall_rem, Nat.sub_self]
    rfl

end Sys2Proof.Machine
end

section
/-! PROOFS. What a sequencer's turn does not depend on: bytes outside those that remain, and the turns to come
(20_memory.md R36, 40_command_and_sequencer.md R68, R73). -/

namespace Sys2Proof.Machine

/-- The same outcome with a change made to the next state. -/
def mapNext (g : State → State) : Host.Outcome State Fault Refusal → Host.Outcome State Fault Refusal
  | .next t => .next (g t)
  | .fault f => .fault f
  | .refused r => .refused r

/-- Another memory under the same registers. -/
def withMem (m : Memory) (s : State) : State :=
  { s with mem := m }

theorem collect_congr {m m' : Memory} {as : List Word} (h : ∀ x ∈ as, Memory.readAt m x = Memory.readAt m' x) :
    Memory.collect m as = Memory.collect m' as := by
  induction as with
  | nil => rfl
  | cons a rest ih =>
    rw [List.forall_mem_cons] at h
    obtain ⟨ha, hrest⟩ := h
    rw [Memory.collect, Memory.collect, ha, ih hrest]

theorem respond_congr {m m' : Memory} {r : MemRequest}
    (h : ∀ k, k < r.size.bytes →
      Memory.readAt m (r.addr + BitVec.ofNat 64 k) = Memory.readAt m' (r.addr + BitVec.ofNat 64 k)) :
    respond m r = respond m' r := by
  have hcollect :
      Memory.collect m (addresses r.addr r.size.bytes) = Memory.collect m' (addresses r.addr r.size.bytes) := by
    refine collect_congr fun x hx => ?_
    obtain ⟨k, hk, rfl⟩ := (mem_addresses _ x _).1 hx
    exact h k hk
  rw [respond, respond, hcollect]

/-- A read answered alike, with a change that the register writes commute with. -/
theorem withRead_map {size : MemSize} {s s' : State} {k k' : Word → State} {g : State → State}
    (h : respond s'.mem (requestOf size s') = respond s.mem (requestOf size s)) (hk : ∀ d, k' d = g (k d)) :
    withRead size s' k' = mapNext g (withRead size s k) := by
  rw [withRead, withRead, h]
  cases respond s.mem (requestOf size s) with
  | ok d => exact congrArg Host.Outcome.next (hk d)
  | error a => rfl

/-- No operation looks at the turns to come. -/
theorem exec_setTurns (i : Instr) (rest : List Turn) (s : State) :
    exec i (setTurns rest s) = mapNext (setTurns rest) (exec i s) := by
  cases i with
  | start data len =>
    by_cases hidle : s.uop = 0b000#3
    · rw [exec_start_of_idle hidle, exec_start_of_idle (s := setTurns rest s) hidle]
      rfl
    · rw [exec_start_of_busy hidle, exec_start_of_busy (s := setTurns rest s) hidle]
      rfl
  | idle => rfl
  | lane8 => exact withRead_map rfl fun _ => rfl
  | combine => rfl
  | half2 => exact withRead_map rfl fun _ => rfl
  | odd1 => exact withRead_map rfl fun _ => rfl
  | fold => rfl
  | cmpl => rfl
  | reserved7 => rfl

/-- The sequencer's operation looks at memory by its request alone (R34). -/
theorem exec_withMem {s : State} {m : Memory}
    (h : ∀ r, memRequest s = some r → respond m r = respond s.mem r) :
    exec (decodeUop s.uop) (withMem m s) = mapNext (withMem m) (exec (decodeUop s.uop) s) := by
  cases hi : decodeUop s.uop with
  | start data len => exact absurd hi (decodeUop_ne_start s.uop data len)
  | idle => rfl
  | lane8 => exact withRead_map (h _ (memRequest_of_lane8 (uop_of_decodeUop hi))) fun _ => rfl
  | combine => rfl
  | half2 => exact withRead_map (h _ (memRequest_of_half2 (uop_of_decodeUop hi))) fun _ => rfl
  | odd1 => exact withRead_map (h _ (memRequest_of_odd1 (uop_of_decodeUop hi))) fun _ => rfl
  | fold => rfl
  | cmpl => rfl
  | reserved7 => rfl

/-- R36: with R24's items on the reading operations a request stays within the bytes that remain. -/
theorem request_le_rem {s : State} (lane : s.uop = 0b001#3 → 8 ≤ s.rem.toNat) (half : s.uop = 0b011#3 → 2 ≤ s.rem.toNat)
    (odd : s.uop = 0b100#3 → s.rem.toNat = 1) {r : MemRequest} (h : memRequest s = some r) :
    r.addr = s.cur ∧ r.size.bytes ≤ s.rem.toNat := by
  refine ⟨memRequest_addr h, ?_⟩
  by_cases h1 : s.uop = 1#3
  · cases (memRequest_of_lane8 h1).symm.trans h
    exact lane h1
  by_cases h3 : s.uop = 3#3
  · cases (memRequest_of_half2 h3).symm.trans h
    exact half h3
  by_cases h4 : s.uop = 4#3
  · cases (memRequest_of_odd1 h4).symm.trans h
    exact (odd h4).ge
  · cases (memRequest_eq_none h1 h3 h4).symm.trans h

theorem CallInv.request_le_rem {s : State} (inv : CallInv s) {r : MemRequest} (h : memRequest s = some r) :
    r.addr = s.cur ∧ r.size.bytes ≤ s.rem.toNat :=
  Machine.request_le_rem inv.lane (fun h3 => (inv.half h3).1) inv.odd h

/-- Settles O43: the step's request lies within the bytes that remain, where the two memories agree. -/
theorem stepReadsOnlyRegion : Obligations.StepReadsOnlyRegion := by
  unfold Obligations.StepReadsOnlyRegion
  intro s m inv hseq hagree
  have hrequest : ∀ r, memRequest s = some r → respond m r = respond s.mem r := by
    intro r hr
    obtain ⟨haddr, hle⟩ := inv.request_le_rem hr
    exact respond_congr fun k hk => haddr ▸ hagree k (hk.trans_le hle)
  have hstep : step (withMem m s) = mapNext (withMem m) (step s) := by
    rw [step_of_sequencerNext hseq, step_of_sequencerNext (s := withMem m s) hseq]
    exact exec_withMem (s := setTurns s.turns.tail s) hrequest
  refine ⟨fun t ht => ?_, fun f hf => ?_⟩
  · exact hstep.trans (congrArg (mapNext (withMem m)) ht)
  · exact hstep.trans (congrArg (mapNext (withMem m)) hf)

end Sys2Proof.Machine
end

section
/-! PROOFS. Folding, the two sums of a byte list and the digest as functions (43_fold.md R91, R92,
40_command_and_sequencer.md R65, R71, R72, 41_lane_adder.md R83, 44_complement_output.md R96, R97). -/

namespace Sys2Proof.Machine

/-! ### How often a value is folded -/

theorem fold1_lt {x : Nat} (h : 2 ^ 16 ≤ x) : fold1 x < x := by
  unfold fold1
  omega

/-- With enough fuel the count is the least number of folds that brings the value below 2^16. -/
theorem foldCountFuel_least {fuel x : Nat} (h : x ≤ fuel) :
    fold1^[foldCountFuel fuel x] x < 2 ^ 16 ∧ ∀ n, n < foldCountFuel fuel x → 2 ^ 16 ≤ fold1^[n] x := by
  induction fuel generalizing x with
  | zero => exact ⟨h.trans_lt (by decide), fun n hn => absurd hn (Nat.not_lt_zero n)⟩
  | succ fuel ih =>
    rw [foldCountFuel]
    split
    · exact ⟨‹_›, fun n hn => absurd hn (Nat.not_lt_zero n)⟩
    · have hge : 2 ^ 16 ≤ x := Nat.not_lt.1 ‹_›
      obtain ⟨hlt, hleast⟩ := ih (x := fold1 x) (by have := fold1_lt hge; omega)
      rw [Nat.add_comm, Function.iterate_succ_apply]
      refine ⟨hlt, fun n hn => ?_⟩
      cases n with
      | zero => exact hge
      | succ n => exact hleast n (Nat.lt_of_succ_lt_succ hn)

theorem foldCount_least (x : Nat) :
    fold1^[foldCount x] x < 2 ^ 16 ∧ ∀ n, n < foldCount x → 2 ^ 16 ≤ fold1^[n] x :=
  foldCountFuel_least le_rfl

theorem foldCount_le {x n : Nat} (h : fold1^[n] x < 2 ^ 16) : foldCount x ≤ n := by
  by_contra hlt
  obtain ⟨-, hleast⟩ := foldCount_least x
  exact absurd h (Nat.not_lt.2 (hleast n (Nat.not_le.1 hlt)))

theorem foldCount_eq {x n : Nat} (h : fold1^[n] x < 2 ^ 16) (hleast : ∀ k, k < n → 2 ^ 16 ≤ fold1^[k] x) :
    foldCount x = n := by
  refine Nat.le_antisymm (foldCount_le h) (Nat.not_lt.1 fun hlt => ?_)
  obtain ⟨hdone, -⟩ := foldCount_least x
  exact absurd hdone (Nat.not_lt.2 (hleast _ hlt))

theorem foldCount_of_lt {x : Nat} (h : x < 2 ^ 16) : foldCount x = 0 :=
  Nat.le_zero.1 (foldCount_le (n := 0) h)

theorem foldCount_of_le {x : Nat} (h : 2 ^ 16 ≤ x) : foldCount x = foldCount (fold1 x) + 1 := by
  obtain ⟨hdone, hleast⟩ := foldCount_least (fold1 x)
  refine foldCount_eq hdone fun k hk => ?_
  cases k with
  | zero => exact h
  | succ k => exact hleast k (Nat.lt_of_succ_lt_succ hk)

/-- The bounds of R91's table: what is left after each fold of a value below 2^64. -/
theorem fold1_bounds {x : Nat} (h : x < 2 ^ 64) :
    fold1 x ≤ 2 ^ 48 + 0xFFFE ∧ fold1^[2] x ≤ 2 ^ 32 + 0xFFFE ∧ fold1^[3] x ≤ 0x1FFFE ∧ fold1^[4] x ≤ 0xFFFF := by
  have step48 : fold1 x ≤ 2 ^ 48 + 0xFFFE := by unfold fold1; omega
  have step32 : fold1^[2] x ≤ 2 ^ 32 + 0xFFFE := by
    rw [Function.iterate_succ_apply', Function.iterate_one, fold1]
    omega
  have step17 : fold1^[3] x ≤ 0x1FFFE := by
    rw [Function.iterate_succ_apply', fold1]
    omega
  have step16 : fold1^[4] x ≤ 0xFFFF := by
    rw [Function.iterate_succ_apply', fold1]
    omega
  exact ⟨step48, step32, step17, step16⟩

theorem foldCount_le_four {x : Nat} (h : x < 2 ^ 64) : foldCount x ≤ 4 := by
  obtain ⟨-, -, -, h4⟩ := fold1_bounds h
  exact foldCount_le (Nat.lt_succ_of_le h4)

/-- Settles O45: the count is the least that suffices, so each bound on a repeated fold bounds it. -/
theorem foldCountBounds : Obligations.FoldCountBounds := by
  unfold Obligations.FoldCountBounds
  refine ⟨foldCount_least, fun x => foldCount_of_lt, fun x h => ?below32,
    fun x h => ⟨foldCount_le_four h, fold1_bounds h⟩, foldCount_eq (by decide) (by decide)⟩
  case below32 =>
    have step17 : fold1 x ≤ 0x1FFFE := by unfold fold1; omega
    have step16 : fold1^[2] x ≤ 0xFFFF := by
      rw [Function.iterate_succ_apply', Function.iterate_one, fold1]
      omega
    exact ⟨foldCount_le (Nat.lt_succ_of_le step16), step17, step16⟩

/-! ### The folded value -/

theorem foldFuel_eq_iterate (fuel x : Nat) : foldFuel fuel x = fold1^[foldCountFuel fuel x] x := by
  induction fuel generalizing x with
  | zero => rfl
  | succ fuel ih =>
    rw [foldFuel, foldCountFuel]
    split
    · rfl
    · rw [ih, Nat.add_comm, Function.iterate_succ_apply]

theorem fold_eq_iterate (x : Nat) : fold x = fold1^[foldCount x] x :=
  foldFuel_eq_iterate x x

theorem fold_lt (x : Nat) : fold x < 2 ^ 16 := by
  obtain ⟨hdone, -⟩ := foldCount_least x
  rw [fold_eq_iterate]
  exact hdone

/-- R92's closed form: the remainder modulo 65535, with 65535 for 0 where the value is not itself 0. -/
def foldedValue (x : Nat) : Nat :=
  if x = 0 then 0 else 1 + (x - 1) % 65535

theorem foldedValue_fold1 (x : Nat) : foldedValue (fold1 x) = foldedValue x := by
  unfold foldedValue fold1
  split <;> split <;> omega

theorem foldedValue_of_lt {x : Nat} (h : x < 2 ^ 16) : foldedValue x = x := by
  unfold foldedValue
  split <;> omega

theorem foldedValue_iterate (n x : Nat) : foldedValue (fold1^[n] x) = foldedValue x := by
  induction n generalizing x with
  | zero => rfl
  | succ n ih => rw [Function.iterate_succ_apply, ih, foldedValue_fold1]

/-- R92: each fold keeps the closed form, which below 2^16 is the value itself. -/
theorem fold_eq_foldedValue (x : Nat) : fold x = foldedValue x := by
  rw [← foldedValue_of_lt (fold_lt x), fold_eq_iterate, foldedValue_iterate]

theorem fold_of_lt {x : Nat} (h : x < 2 ^ 16) : fold x = x := by
  rw [fold_eq_foldedValue, foldedValue_of_lt h]

theorem fold_fold1 (x : Nat) : fold (fold1 x) = fold x := by
  rw [fold_eq_foldedValue, foldedValue_fold1, fold_eq_foldedValue]

theorem fold_le (x : Nat) : fold x ≤ 0xFFFF :=
  Nat.le_of_lt_succ (fold_lt x)

theorem fold_eq_zero_iff (x : Nat) : fold x = 0 ↔ x = 0 := by
  rw [fold_eq_foldedValue, foldedValue]
  split <;> omega

theorem fold_eq_max_iff (x : Nat) : fold x = 0xFFFF ↔ x ≠ 0 ∧ x % 65535 = 0 := by
  rw [fold_eq_foldedValue, foldedValue]
  split <;> omega

theorem fold_mod (x : Nat) : fold x % 65535 = x % 65535 := by
  rw [fold_eq_foldedValue, foldedValue]
  split <;> omega

/-- Settles O44: the closed form is kept by each fold, and the rest is read off it. -/
theorem foldClosedForm : Obligations.FoldClosedForm := by
  unfold Obligations.FoldClosedForm
  exact fun x _ => ⟨fold_eq_foldedValue x, fold_le x, fold_eq_zero_iff x, fold_eq_max_iff x, fold_mod x⟩

/-- Values that agree modulo 65535 and in being zero fold alike. -/
theorem fold_congr {x y : Nat} (hmod : x % 65535 = y % 65535) (hzero : x = 0 ↔ y = 0) : fold x = fold y := by
  rw [fold_eq_foldedValue, fold_eq_foldedValue, foldedValue, foldedValue]
  split <;> split <;> omega

/-! ### The 16-bit sum -/

theorem leNat_cons_cons (a b : Byte) (l : List Byte) : leNat (a :: b :: l) = leNat [a, b] + 65536 * leNat l := by
  simp only [leNat]
  ring

/-- 2^16 leaves 1 modulo 65535, so a little-endian value and its sum of 16-bit words agree. -/
theorem leNat_mod_eq_w16_mod (l : List Byte) : leNat l % 65535 = w16 l % 65535 := by
  induction l using w16.induct with
  | case1 => rfl
  | case2 b => simp [leNat, w16]
  | case3 a b l ih =>
    rw [leNat_cons_cons, w16]
    omega

theorem leNat_eq_zero_iff (l : List Byte) : leNat l = 0 ↔ ∀ x ∈ l, x = 0#8 := by
  induction l with
  | nil => simp [leNat]
  | cons b l ih =>
    have hb : b.toNat = 0 ↔ b = 0#8 := (BitVec.toNat_inj (y := 0#8))
    rw [leNat, List.forall_mem_cons, ← ih, ← hb]
    omega

theorem w16_eq_zero_iff (l : List Byte) : w16 l = 0 ↔ ∀ x ∈ l, x = 0#8 := by
  induction l using w16.induct with
  | case1 => simp [w16]
  | case2 b =>
    have hb : b.toNat = 0 ↔ b = 0#8 := (BitVec.toNat_inj (y := 0#8))
    simp [w16, hb]
  | case3 a b l ih =>
    have hpair := leNat_eq_zero_iff [a, b]
    rw [List.forall_mem_cons, List.forall_mem_singleton] at hpair
    rw [w16, Nat.add_eq_zero_iff, ih, hpair, List.forall_mem_cons, List.forall_mem_cons, and_assoc]

theorem w16_append {p : List Byte} (h : p.length % 2 = 0) (q : List Byte) : w16 (p ++ q) = w16 p + w16 q := by
  induction p using w16.induct with
  | case1 => simp [w16]
  | case2 b => simp at h
  | case3 a b l ih =>
    rw [List.length_cons, List.length_cons] at h
    rw [List.cons_append, List.cons_append, w16, w16, ih (by omega), Nat.add_assoc]

theorem w16_le (l : List Byte) : w16 l ≤ 65535 * (l.length / 2) + 255 * (l.length % 2) := by
  induction l using w16.induct with
  | case1 => simp [w16]
  | case2 b =>
    have hb := b.isLt
    simp only [w16, List.length_singleton]
    omega
  | case3 a b l ih =>
    have hpair : leNat [a, b] < 2 ^ 16 := leNat_lt [a, b]
    simp only [w16, List.length_cons]
    omega

/-! ### The lane total -/

theorem laneTotal_of_short {b : List Byte} (h : b.length < 8) : laneTotal b = w16 b := by
  match b, h with
  | [], _ => rfl
  | [_], _ => rfl
  | [_, _], _ => rfl
  | [_, _, _], _ => rfl
  | [_, _, _, _], _ => rfl
  | [_, _, _, _, _], _ => rfl
  | [_, _, _, _, _, _], _ => rfl
  | [_, _, _, _, _, _, _], _ => rfl

theorem chunk_length {lo hi : List Byte} (hlo : lo.length = 4) (hhi : hi.length = 4) : (lo ++ hi).length = 8 := by
  rw [List.length_append, hlo, hhi]

theorem laneTotal_chunk {lo hi : List Byte} (hlo : lo.length = 4) (hhi : hi.length = 4) (rest : List Byte) :
    laneTotal (lo ++ hi ++ rest) = leNat lo + leNat hi + laneTotal rest := by
  obtain ⟨-, -, htotal⟩ := lanes_append (lo ++ hi) (by rw [chunk_length hlo hhi]) rest
  obtain ⟨hl, hh⟩ := lanes_of_halves hlo hhi
  rw [htotal, hl, hh]

/-- A list is fewer than 8 bytes, or a chunk of two lanes and a list. -/
theorem chunk_induction {P : List Byte → Prop} (short : ∀ b, b.length < 8 → P b)
    (chunk : ∀ lo hi rest, lo.length = 4 → hi.length = 4 → P rest → P (lo ++ hi ++ rest)) (b : List Byte) : P b := by
  induction hn : b.length using Nat.strong_induction_on generalizing b with
  | _ n ih =>
    by_cases hlt : b.length < 8
    · exact short b hlt
    · have hsplit : b.take 4 ++ (b.drop 4).take 4 ++ (b.drop 4).drop 4 = b := by
        rw [List.append_assoc, List.take_append_drop, List.take_append_drop]
      rw [← hsplit]
      refine chunk _ _ _ ?_ ?_ (ih ((b.drop 4).drop 4).length ?_ _ rfl) <;>
        simp only [List.length_take, List.length_drop] <;> omega

theorem laneTotal_mod_eq_w16_mod (b : List Byte) : laneTotal b % 65535 = w16 b % 65535 := by
  induction b using chunk_induction with
  | short b h => rw [laneTotal_of_short h]
  | chunk lo hi rest hlo hhi ih =>
    have hl := leNat_mod_eq_w16_mod lo
    have hh := leNat_mod_eq_w16_mod hi
    rw [laneTotal_chunk hlo hhi, w16_append (by rw [chunk_length hlo hhi]), w16_append (by rw [hlo])]
    omega

theorem laneTotal_eq_zero_iff (b : List Byte) : laneTotal b = 0 ↔ ∀ x ∈ b, x = 0#8 := by
  induction b using chunk_induction with
  | short b h => rw [laneTotal_of_short h, w16_eq_zero_iff]
  | chunk lo hi rest hlo hhi ih =>
    rw [laneTotal_chunk hlo hhi, Nat.add_eq_zero_iff, Nat.add_eq_zero_iff, leNat_eq_zero_iff, leNat_eq_zero_iff, ih,
      List.forall_mem_append, List.forall_mem_append]

theorem fold_laneTotal (b : List Byte) : fold (laneTotal b) = fold (w16 b) :=
  fold_congr (laneTotal_mod_eq_w16_mod b) ((laneTotal_eq_zero_iff b).trans (w16_eq_zero_iff b).symm)

/-- Settles O47: a lane and its two 16-bit words agree modulo 65535, and both sums are zero for zero bytes alone. -/
theorem laneTotalFoldsLikeWords : Obligations.LaneTotalFoldsLikeWords := by
  unfold Obligations.LaneTotalFoldsLikeWords
  exact fun b => ⟨laneTotal_mod_eq_w16_mod b, (laneTotal_eq_zero_iff b).trans (w16_eq_zero_iff b).symm,
    laneTotal_eq_zero_iff b, fold_laneTotal b⟩

/-- Settles O50: the 16-bit sum splits at an even offset, and the lane total is that sum modulo 65535. -/
theorem evenSplitAddsUp : Obligations.EvenSplitAddsUp := by
  unfold Obligations.EvenSplitAddsUp
  intro p q h
  refine ⟨w16_append h q, ?_⟩
  rw [laneTotal_mod_eq_w16_mod, w16_append h, Nat.add_mod, ← laneTotal_mod_eq_w16_mod p, ← laneTotal_mod_eq_w16_mod q,
    ← Nat.add_mod]

/-- R83: two full lanes for every chunk, and three half-words and a byte for the tail. -/
theorem laneTotal_le (b : List Byte) : laneTotal b ≤ 2 * (b.length / 8) * (2 ^ 32 - 1) + 196860 := by
  induction b using chunk_induction with
  | short b h =>
    have := w16_le b
    rw [laneTotal_of_short h]
    omega
  | chunk lo hi rest hlo hhi ih =>
    have hl := leNat_lt lo
    have hh := leNat_lt hi
    rw [hlo] at hl
    rw [hhi] at hh
    rw [laneTotal_chunk hlo hhi, List.length_append, chunk_length hlo hhi]
    omega

/-- R83: up to the bound the total fits in an accumulator. -/
theorem laneTotal_lt {b : List Byte} (h : b.length ≤ Config.safeLength) : laneTotal b < 2 ^ 64 := by
  have hle := laneTotal_le b
  have hlen : b.length ≤ 2 ^ 34 + 7 := h
  omega

theorem laneTotal_ones (n : Nat) : laneTotal (List.replicate (8 * n) 0xFF#8) = 2 * n * (2 ^ 32 - 1) := by
  induction n with
  | zero => rfl
  | succ n ih =>
    have hsplit : List.replicate (8 * (n + 1)) 0xFF#8
        = List.replicate 4 0xFF#8 ++ List.replicate 4 0xFF#8 ++ List.replicate (8 * n) 0xFF#8 := by
      rw [← List.replicate_add, ← List.replicate_add]
      congr 1
      ring
    have hlane : leNat (List.replicate 4 0xFF#8) = 2 ^ 32 - 1 := by decide
    rw [hsplit, laneTotal_chunk List.length_replicate List.length_replicate, ih, hlane]
    ring

/-- Settles O48: by the bound for every list, and by the exact total of 2^31 + 1 chunks of ones. -/
theorem noWrapUpToBound : Obligations.NoWrapUpToBound := by
  unfold Obligations.NoWrapUpToBound
  refine ⟨fun _ => laneTotal_lt, laneTotal_le, ?_⟩
  have hbytes : 2 ^ 34 + 8 = 8 * (2 ^ 31 + 1) := by norm_num
  rw [hbytes, laneTotal_ones]
  norm_num

/-! ### The digest -/

theorem complementOf_toNat {x : Nat} : (complementOf x).toNat = 0xFFFF - x := by
  rw [complementOf, BitVec.toNat_ofNat]
  omega

theorem digestOf_toNat (b : List Byte) : (digestOf b).toNat = 0xFFFF - fold (w16 b) :=
  complementOf_toNat

theorem digestOf_eq_iff (b : List Byte) (r : Digest) : digestOf b = r ↔ fold (w16 b) = 0xFFFF - r.toNat := by
  have hle := fold_le (w16 b)
  have hr := r.isLt
  rw [← BitVec.toNat_inj, digestOf_toNat]
  omega

/-- R96: the digest is `0xFFFF` for zero bytes alone. -/
theorem digestOf_eq_max_iff (b : List Byte) : digestOf b = 0xFFFF#16 ↔ ∀ x ∈ b, x = 0#8 := by
  rw [digestOf_eq_iff, ← w16_eq_zero_iff, ← fold_eq_zero_iff]
  rfl

/-- R96: the digest is `0x0000` for a nonzero multiple of 65535. -/
theorem digestOf_eq_zero_iff (b : List Byte) : digestOf b = 0x0000#16 ↔ w16 b ≠ 0 ∧ w16 b % 65535 = 0 := by
  rw [digestOf_eq_iff, ← fold_eq_max_iff]
  rfl

theorem w16_pair (a b : Byte) : w16 [a, b] = leNat [a, b] := rfl

/-- R72 P5: two bytes are one word, below 2^16 and so not folded. -/
theorem digestOf_pair (a b : Byte) : digestOf [a, b] = ~~~(b ++ a) := by
  have hlt : leNat [a, b] < 2 ^ 16 := leNat_lt [a, b]
  rw [digestOf_eq_iff, w16_pair, fold_of_lt hlt, BitVec.toNat_not, append_toNat, leNat_two] at *
  omega

theorem w16_ones (n : Nat) : w16 (List.replicate (2 * n) 0xFF#8) = 65535 * n := by
  induction n with
  | zero => rfl
  | succ n ih =>
    have hsplit : List.replicate (2 * (n + 1)) 0xFF#8 = 0xFF#8 :: 0xFF#8 :: List.replicate (2 * n) 0xFF#8 := by
      rw [Nat.mul_succ, List.replicate_succ, List.replicate_succ]
    have hpair : leNat [0xFF#8, 0xFF#8] = 65535 := by decide
    rw [hsplit, w16, ih, hpair]
    ring

/-- Settles O49: zeros and ones by the two extremes of the digest, two bytes by their one word. -/
theorem digestProperties : Obligations.DigestProperties := by
  unfold Obligations.DigestProperties
  refine ⟨fun n => (digestOf_eq_max_iff _).2 fun _ => List.eq_of_mem_replicate, fun n heven hn => ?_, digestOf_pair⟩
  obtain ⟨k, rfl⟩ := Nat.dvd_of_mod_eq_zero heven
  rw [digestOf_eq_zero_iff, w16_ones]
  omega

/-- The two bytes of a 16-bit value, the high one first, are the value. -/
theorem digest_bytes (r : Digest) : r.extractLsb' 8 8 ++ r.extractLsb' 0 8 = r := by
  have hlt := r.isLt
  apply BitVec.eq_of_toNat_eq
  rw [append_toNat, BitVec.extractLsb'_toNat, BitVec.extractLsb'_toNat, Nat.shiftRight_eq_div_pow, Nat.shiftRight_zero]
  omega

/-- Settles O51: the extremes by what the fold is; any value is the digest of the two bytes of its complement. -/
theorem digestExtremes : Obligations.DigestExtremes := by
  unfold Obligations.DigestExtremes
  refine ⟨digestOf_eq_max_iff, digestOf_eq_zero_iff, fun r => ⟨[(~~~r).extractLsb' 0 8, (~~~r).extractLsb' 8 8], ?_⟩⟩
  rw [digestOf_pair, digest_bytes, BitVec.not_not]

/-- A 16-bit value stored little-endian is one word of the sum. -/
theorem w16_stored (r : Digest) : w16 [r.extractLsb' 0 8, r.extractLsb' 8 8] = r.toNat := by
  rw [w16_pair, leNat_two]
  have hbytes := congrArg BitVec.toNat (digest_bytes r)
  rw [append_toNat] at hbytes
  omega

/-- R97: a sum and the complement of its fold add up to a nonzero multiple of 65535. -/
theorem add_complement_fold (x : Nat) : x + (0xFFFF - fold x) ≠ 0 ∧ (x + (0xFFFF - fold x)) % 65535 = 0 := by
  have hle := fold_le x
  have hmod := fold_mod x
  have hzero := fold_eq_zero_iff x
  omega

/-- Settles O52: the stored digest adds the complement of the fold to the sum it was taken of. -/
theorem selfCheckGivesZero : Obligations.SelfCheckGivesZero := by
  unfold Obligations.SelfCheckGivesZero
  refine ⟨fun b h => ?_, fun p q h => ?_⟩
  · rw [digestOf_eq_zero_iff, w16_append h, w16_stored, digestOf_toNat]
    exact add_complement_fold (w16 b)
  · have hsplit : ∀ r : Digest, w16 (p ++ [r.extractLsb' 0 8, r.extractLsb' 8 8] ++ q) = w16 p + w16 q + r.toNat := by
      intro r
      rw [List.append_assoc, w16_append h, w16_append (by rw [List.length_cons, List.length_singleton]), w16_stored]
      ring
    have hzeros : w16 (p ++ [0#8, 0#8] ++ q) = w16 p + w16 q := hsplit 0#16
    rw [digestOf_eq_zero_iff, hsplit, digestOf_toNat, hzeros]
    exact add_complement_fold (w16 p + w16 q)

end Sys2Proof.Machine
end

section
/-! PROOFS. The sequencer's operations in a row, whatever turns they take, and what a run of the machine makes of them
(40_command_and_sequencer.md R68, R70, 30_encoding.md R59, 20_memory.md R36). -/

namespace Sys2Proof.Machine

/-- From the first state the sequencer performs these operations, with these requests, while a call is in progress, and
is then in the second state. Nothing is said of whose turn it is. -/
inductive Performs : List Instr → List MemRequest → State → State → Prop
  | done (s : State) : Performs [] [] s s
  | turn {s u t : State} {ops : List Instr} {reqs : List MemRequest} (hbusy : s.uop ≠ 0b000#3)
      (hexec : exec (decodeUop s.uop) s = .next u) (hrest : Performs ops reqs u t) :
      Performs (decodeUop s.uop :: ops) ((memRequest s).toList ++ reqs) s t

theorem Performs.trans {ops ops' : List Instr} {reqs reqs' : List MemRequest} {s u t : State}
    (h : Performs ops reqs s u) (h' : Performs ops' reqs' u t) : Performs (ops ++ ops') (reqs ++ reqs') s t := by
  induction h with
  | done => exact h'
  | turn hbusy hexec _ ih =>
    rw [List.append_assoc]
    exact .turn hbusy hexec (ih h')

/-- One operation that makes no request, then others. -/
theorem Performs.cons_silent {i : Instr} {ops : List Instr} {reqs : List MemRequest} {s u t : State}
    (hi : decodeUop s.uop = i) (hbusy : s.uop ≠ 0b000#3) (hreq : memRequest s = none) (hexec : exec i s = .next u)
    (h : Performs ops reqs u t) : Performs (i :: ops) reqs s t := by
  subst hi
  have hturn := Performs.turn hbusy hexec h
  rwa [hreq] at hturn

/-- One operation that reads, then others. -/
theorem Performs.cons_reading {i : Instr} {r : MemRequest} {ops : List Instr} {reqs : List MemRequest} {s u t : State}
    (hi : decodeUop s.uop = i) (hbusy : s.uop ≠ 0b000#3) (hreq : memRequest s = some r) (hexec : exec i s = .next u)
    (h : Performs ops reqs u t) : Performs (i :: ops) (r :: reqs) s t := by
  subst hi
  have hturn := Performs.turn hbusy hexec h
  rwa [hreq] at hturn

/-- The sequencer writes neither memory nor the turns to come. -/
theorem Performs.keeps {ops : List Instr} {reqs : List MemRequest} {s t : State} (h : Performs ops reqs s t) :
    t.mem = s.mem ∧ t.turns = s.turns := by
  induction h with
  | done => exact ⟨rfl, rfl⟩
  | turn _ hexec _ ih =>
    obtain ⟨hmem, hturns, -⟩ := exec_keeps hexec
    obtain ⟨hmem', hturns'⟩ := ih
    exact ⟨hmem'.trans hmem, hturns'.trans hturns⟩

/-! ### With no turns listed -/

/-- With no turn listed the sequencer moves at every step. -/
theorem Performs.run {ops : List Instr} {reqs : List MemRequest} {s t : State} (h : Performs ops reqs s t)
    (hturns : s.turns = []) : Host.Core.run core ops.length s = .next t := by
  induction h with
  | done => rfl
  | turn _ hexec _ ih =>
    obtain ⟨-, hkept, -⟩ := exec_keeps hexec
    exact (run_succ ((step_of_nil hturns).trans hexec) _).trans (ih (hkept.trans hturns))

/-- Before the last of the operations is performed the call is in progress. -/
theorem Performs.busy {ops : List Instr} {reqs : List MemRequest} {s t : State} (h : Performs ops reqs s t)
    (hturns : s.turns = []) {n : Nat} (hn : n < ops.length) {u : State}
    (hu : Host.Core.run core n s = .next u) : u.uop ≠ 0b000#3 := by
  induction h generalizing n with
  | done => exact absurd hn (Nat.not_lt_zero n)
  | turn hbusy hexec _ ih =>
    cases n with
    | zero =>
      cases hu
      exact hbusy
    | succ n =>
      obtain ⟨-, hkept, -⟩ := exec_keeps hexec
      have hstep := (step_of_nil hturns).trans hexec
      exact ih (hkept.trans hturns) (Nat.lt_of_succ_lt_succ hn) ((run_succ hstep n).symm.trans hu)

theorem operationsInRun_of_nil {s t : State} (hturns : s.turns = []) (h : step s = .next t) (n : Nat) :
    operationsInRun (n + 1) s = decodeUop s.uop :: operationsInRun n t := by
  simp [operationsInRun, hturns, h]

theorem requestsInRun_of_nil {s t : State} (hturns : s.turns = []) (h : step s = .next t) (n : Nat) :
    requestsInRun (n + 1) s = (memRequest s).toList ++ requestsInRun n t := by
  simp [requestsInRun, hturns, h]

/-- R59: the run's operations are those performed, and its requests theirs. -/
theorem Performs.inRun {ops : List Instr} {reqs : List MemRequest} {s t : State} (h : Performs ops reqs s t)
    (hturns : s.turns = []) : operationsInRun ops.length s = ops ∧ requestsInRun ops.length s = reqs := by
  induction h with
  | done => exact ⟨rfl, rfl⟩
  | turn _ hexec _ ih =>
    obtain ⟨-, hkept, -⟩ := exec_keeps hexec
    have hstep := (step_of_nil hturns).trans hexec
    obtain ⟨hops, hreqs⟩ := ih (hkept.trans hturns)
    rw [List.length_cons, operationsInRun_of_nil hturns hstep, requestsInRun_of_nil hturns hstep, hops, hreqs]
    exact ⟨rfl, rfl⟩

/-! ### With the host's turns in between -/

/-- R68, R119: a host turn without reset and read leaves a call in progress as it is. -/
theorem step_undisturbing {s : State} {pins : HostPins} {rest : List Turn} (h : Undisturbing (.host pins))
    (hbusy : s.uop ≠ 0b000#3) (hnext : HostNext s pins rest) : step s = .next (setTurns rest s) := by
  obtain ⟨hreset, hread⟩ := h
  rw [step_of_hostNext hnext, hostTurn_of_no_read hreset hread]
  exact runWord_command_of_busy (s := setTurns rest s) hbusy _

/-- A sequencer turn performs the operation, whatever turns come after it. -/
theorem step_sequencer {s u : State} (h : exec (decodeUop s.uop) s = .next u) (rest : List Turn) :
    step (setTurns (.sequencer :: rest) s) = .next (setTurns rest u) := by
  rw [step_of_sequencer_cons (setTurns_turns s _)]
  exact (exec_setTurns _ rest s).trans (congrArg (mapNext (setTurns rest)) h)

theorem sequencerTurns_sequencer (ts : List Turn) : sequencerTurns (.sequencer :: ts) = sequencerTurns ts + 1 := by
  simp [sequencerTurns]

theorem sequencerTurns_host (pins : HostPins) (ts : List Turn) :
    sequencerTurns (.host pins :: ts) = sequencerTurns ts := by
  simp [sequencerTurns]

/-- R71: the turns of the two agents may come in any order, as long as the sequencer has one for each operation, the
last of them the last turn. -/
theorem Performs.run_interleaved {ops : List Instr} {reqs : List MemRequest} {s t : State} {during rest : List Turn}
    (h : Performs ops reqs s t) (hhost : ∀ turn ∈ during, Undisturbing turn)
    (hcount : sequencerTurns during + 1 = ops.length) :
    Host.Core.run core (during.length + 1) (setTurns (during ++ .sequencer :: rest) s) = .next (setTurns rest t) := by
  induction during generalizing s ops reqs with
  | nil =>
    cases h with
    | done => cases hcount
    | turn hbusy hexec hrest =>
      cases hrest with
      | done => exact run_succ (step_sequencer hexec rest) 0
      | turn => cases hcount
  | cons turn during ih =>
    rw [List.forall_mem_cons] at hhost
    obtain ⟨hturn, hhost⟩ := hhost
    cases turn with
    | sequencer =>
      rw [sequencerTurns_sequencer] at hcount
      cases h with
      | done => cases hcount
      | turn hbusy hexec hrest =>
        exact (run_succ (step_sequencer hexec _) _).trans (ih hrest hhost (Nat.succ.inj hcount))
    | host pins =>
      rw [sequencerTurns_host] at hcount
      have hbusy : s.uop ≠ 0b000#3 := by
        cases h with
        | done => cases hcount
        | turn hbusy => exact hbusy
      have hstep := step_undisturbing hturn (s := setTurns (.host pins :: (during ++ .sequencer :: rest)) s) hbusy rfl
      exact (run_succ hstep _).trans (ih (s := s) h hhost hcount)

end Sys2Proof.Machine
end

section
/-! PROOFS. Whole calls: from an accepted `START` to the result, with the operations and the requests on the way
(40_command_and_sequencer.md R70 to R73, 20_memory.md R36, 30_encoding.md R60, 42_tail.md R87). -/

namespace Sys2Proof.Machine

/-! ### The folder -/

/-- `sum` folded to below 2^16, and `CMPL` next. -/
def folded (s : State) : State :=
  goTo 0b110#3 (setSum (BitVec.ofNat 64 (fold s.sum.toNat)) s)

theorem foldWord_eq_fold1 (v : Word) : (foldWord v).toNat = fold1 v.toNat :=
  foldWord_toNat v

theorem folded_of_lt {s : State} (huop : s.uop = 0b110#3) (h : s.sum.toNat < 2 ^ 16) : folded s = s := by
  have hsum : BitVec.ofNat 64 (fold s.sum.toNat) = s.sum := by
    rw [fold_of_lt h, BitVec.ofNat_toNat, BitVec.setWidth_eq]
  rw [folded, hsum, ← huop]
  rfl

/-- One fold more or less leads to the same folded state. -/
theorem folded_fold (s : State) :
    folded (goTo (seqFold (foldWord s.sum)) (setSum (foldWord s.sum) s)) = folded s := by
  have hfold : fold (foldWord s.sum).toNat = fold s.sum.toNat := by rw [foldWord_eq_fold1, fold_fold1]
  rw [folded, goTo_sum, setSum_sum, hfold]
  rfl

/-- R91, R93: the folder folds `sum` in place as often as `foldCount` says, by induction on `sum`. -/
theorem performs_folds {s : State} (huop : s.uop = seqFold s.sum) :
    Performs (List.replicate (foldCount s.sum.toNat) .fold) [] s (folded s) := by
  induction hn : s.sum.toNat using Nat.strong_induction_on generalizing s with
  | _ n ih =>
    subst hn
    by_cases h : s.sum.toNat < 2 ^ 16
    · rw [seqFold_of_lt h] at huop
      rw [foldCount_of_lt h, folded_of_lt huop h]
      exact .done s
    · have hge : 2 ^ 16 ≤ s.sum.toNat := Nat.not_lt.1 h
      rw [seqFold_of_le hge] at huop
      have hnext := ih (foldWord s.sum).toNat (by rw [foldWord_eq_fold1]; exact fold1_lt hge)
        (s := goTo (seqFold (foldWord s.sum)) (setSum (foldWord s.sum) s)) rfl rfl
      rw [folded_fold, foldWord_eq_fold1] at hnext
      rw [foldCount_of_le hge, List.replicate_succ]
      exact .cons_silent (congrArg decodeUop huop) (uop_ne_idle huop) (memRequest_of_fold huop) (exec_fold s) hnext

/-- Settles O46: the operations are `foldCount` folds, so the run is that long. -/
theorem folderReachesSixteenBits : Obligations.FolderReachesSixteenBits := by
  unfold Obligations.FolderReachesSixteenBits
  intro s hturns huop hsum
  have hrun := (performs_folds (huop.trans (seqFold_of_le hsum).symm)).run hturns
  rw [List.length_replicate] at hrun
  exact ⟨hrun, fold_lt _⟩

/-! ### The rest of a call, from its end backwards -/

/-- The sequencer performs these operations, with these requests, and the call has ended with the complement of this
total's fold. -/
def Finishes (ops : List Instr) (reqs : List MemRequest) (total : Word) (s : State) : Prop :=
  ∃ t, Performs ops reqs s t ∧ CallEnded t ∧ t.result = complementOf (fold total.toNat) ∧ t.rem = 0#64

theorem Finishes.cons_silent {i : Instr} {ops : List Instr} {reqs : List MemRequest} {total : Word} {s u : State}
    (hi : decodeUop s.uop = i) (hbusy : s.uop ≠ 0b000#3) (hreq : memRequest s = none) (hexec : exec i s = .next u)
    (h : Finishes ops reqs total u) : Finishes (i :: ops) reqs total s := by
  obtain ⟨t, hperf, hend⟩ := h
  exact ⟨t, hperf.cons_silent hi hbusy hreq hexec, hend⟩

theorem Finishes.cons_reading {i : Instr} {r : MemRequest} {ops : List Instr} {reqs : List MemRequest} {total : Word}
    {s u : State} (hi : decodeUop s.uop = i) (hbusy : s.uop ≠ 0b000#3) (hreq : memRequest s = some r)
    (hexec : exec i s = .next u) (h : Finishes ops reqs total u) : Finishes (i :: ops) (r :: reqs) total s := by
  obtain ⟨t, hperf, hend⟩ := h
  exact ⟨t, hperf.cons_reading hi hbusy hreq hexec, hend⟩

/-- R95: the output stage on a folded value below 2^16. -/
theorem complementLow_fold (x : Nat) : complementLow (BitVec.ofNat 64 (fold x)) = complementOf (fold x) := by
  have hlt := fold_lt x
  apply BitVec.eq_of_toNat_eq
  rw [complementLow_toNat, complementOf_toNat, BitVec.toNat_ofNat]
  omega

/-- With nothing left to read: the folds, then `CMPL`. -/
theorem finishes_of_seqFold {s : State} (huop : s.uop = seqFold s.sum) (hrem : s.rem.toNat = 0) :
    Finishes (List.replicate (foldCount s.sum.toNat) .fold ++ [.cmpl]) [] s.sum s := by
  have hcmpl : Performs [.cmpl] [] (folded s) (goTo 0b000#3 (deliver (complementLow (folded s).sum) (folded s))) :=
    .cons_silent rfl (uop_ne_idle (c := 0b110#3) rfl) rfl (exec_cmpl (folded s)) (.done _)
  exact ⟨_, (performs_folds huop).trans hcmpl, ⟨rfl, rfl⟩, complementLow_fold s.sum.toNat, BitVec.eq_of_toNat_eq hrem⟩

/-- The bytes that remain to be read are these. -/
structure Ahead (b : List Byte) (s : State) : Prop where
  length : s.rem.toNat = b.length
  bytes : Memory.collect s.mem (addresses s.cur b.length) = .ok b

theorem Ahead.front {p q : List Byte} {s : State} (h : Ahead (p ++ q) s) :
    Memory.collect s.mem (addresses s.cur p.length) = .ok p := by
  have hbytes := h.bytes
  rw [List.length_append, addresses_append] at hbytes
  obtain ⟨hfront, -⟩ := collect_append_ok _ _ _ _ hbytes
  rwa [addresses_length, List.take_left] at hfront

/-- After a read of the front the rest remains. -/
theorem Ahead.rest {p q : List Byte} {s t : State} (h : Ahead (p ++ q) s) (hmem : t.mem = s.mem)
    (hcur : t.cur = s.cur + BitVec.ofNat 64 p.length) (hrem : t.rem = remAfter p.length s) : Ahead q t := by
  obtain ⟨hlength, hbytes⟩ := h
  rw [List.length_append] at hlength
  rw [List.length_append, addresses_append] at hbytes
  obtain ⟨-, hrest⟩ := collect_append_ok _ _ _ _ hbytes
  rw [addresses_length, List.drop_left] at hrest
  refine ⟨?_, by rw [hmem, hcur]; exact hrest⟩
  rw [hrem, remAfter_toNat (by omega), hlength, Nat.add_sub_cancel_left]

/-! ### The operations and requests of R60 and R36 by their first -/

/-- The operations of a call after `COMBINE`, with `n` bytes in the tail (R87). -/
def tailOperations (n f : Nat) : List Instr :=
  List.replicate (n / 2) .half2 ++ (if n % 2 = 1 then [.odd1] else []) ++ (List.replicate f .fold ++ [.cmpl])

theorem tailOperations_add_two (n f : Nat) : tailOperations (n + 2) f = .half2 :: tailOperations n f := by
  rw [tailOperations, tailOperations, Nat.add_mod_right, Nat.add_div_right n (by decide), List.replicate_succ]
  rfl

theorem operationsOfCall_of_lt {n : Nat} (h : n < 8) (f : Nat) :
    operationsOfCall n f = .combine :: tailOperations n f := by
  rw [operationsOfCall, Nat.div_eq_of_lt h, Nat.mod_eq_of_lt h, tailOperations]
  simp

theorem operationsOfCall_add_eight (n f : Nat) : operationsOfCall (n + 8) f = .lane8 :: operationsOfCall n f := by
  have hodd : (n + 8) % 2 = n % 2 := by omega
  rw [operationsOfCall, operationsOfCall, Nat.add_mod_right, hodd, Nat.add_div_right n (by decide),
    List.replicate_succ]
  rfl

theorem operationsOfCall_length (n f : Nat) : (operationsOfCall n f).length = stepsOfCall n f := by
  have hodd : (if n % 2 = 1 then [Instr.odd1] else []).length = n % 2 := by
    rcases Nat.mod_two_eq_zero_or_one n with h | h <;> rw [h] <;> rfl
  simp only [operationsOfCall, stepsOfCall, List.length_append, List.length_replicate, List.length_singleton, hodd]

theorem add_ofNat_add (a : Word) (m k : Nat) :
    a + BitVec.ofNat 64 m + BitVec.ofNat 64 k = a + BitVec.ofNat 64 (m + k) := by
  rw [BitVec.add_assoc, BitVec.ofNat_add]

theorem add_ofNat_zero (a : Word) : a + BitVec.ofNat 64 0 = a :=
  BitVec.add_zero a

/-- The odd byte's request, seen from an earlier or a later cursor. -/
theorem oddRequest_shift (a : Word) (n k : Nat) :
    (if (n + 2 * k) % 2 = 1 then [(⟨.one, a + BitVec.ofNat 64 (n + 2 * k - 1)⟩ : MemRequest)] else []) =
      if n % 2 = 1 then [⟨.one, a + BitVec.ofNat 64 (2 * k) + BitVec.ofNat 64 (n - 1)⟩] else [] := by
  rw [Nat.add_mul_mod_self_left]
  split
  · rw [add_ofNat_add]
    congr 4
    omega
  · rfl

theorem requestsOfCall_add_eight (a : Word) (n : Nat) :
    requestsOfCall a (n + 8) = ⟨.eight, a⟩ :: requestsOfCall (a + 8#64) n := by
  have hlanes : ∀ c, a + BitVec.ofNat 64 (8 * (c + 1)) = a + 8#64 + BitVec.ofNat 64 (8 * c) := by
    intro c
    rw [add_ofNat_add a 8]
    congr 2
    ring
  have htail : ∀ j,
      a + BitVec.ofNat 64 (8 * (n / 8 + 1) + 2 * j) = a + 8#64 + BitVec.ofNat 64 (8 * (n / 8) + 2 * j) := by
    intro j
    rw [add_ofNat_add a 8]
    congr 2
    ring
  rw [requestsOfCall, requestsOfCall, Nat.add_mod_right, Nat.add_div_right n (by decide), oddRequest_shift a n 4,
    List.range_succ_eq_map, List.map_cons, List.map_map]
  simp only [Function.comp_def, Nat.succ_eq_add_one, hlanes, htail, Nat.mul_zero, add_ofNat_zero, List.cons_append]

theorem requestsOfCall_add_two (a : Word) {n : Nat} (h : n + 2 < 8) :
    requestsOfCall a (n + 2) = ⟨.two, a⟩ :: requestsOfCall (a + 2#64) n := by
  have hhalf : (n + 2) / 2 = n / 2 + 1 := Nat.add_div_right n (by decide)
  have htail : ∀ j, a + BitVec.ofNat 64 (8 * 0 + 2 * (j + 1)) = a + 2#64 + BitVec.ofNat 64 (8 * 0 + 2 * j) := by
    intro j
    rw [add_ofNat_add a 2]
    congr 2
    ring
  rw [requestsOfCall, requestsOfCall, oddRequest_shift a n 1, Nat.div_eq_of_lt h, Nat.div_eq_of_lt (by omega : n < 8),
    Nat.mod_eq_of_lt h, Nat.mod_eq_of_lt (by omega : n < 8), hhalf, List.range_succ_eq_map, List.map_cons, List.map_map]
  simp only [Function.comp_def, Nat.succ_eq_add_one, htail, List.range_zero, List.map_nil, List.nil_append,
    Nat.mul_zero, Nat.add_zero, add_ofNat_zero, List.cons_append]

/-! ### The tail and the chunks -/

/-- R24: adding what an operand stands for, before or after the rest of the sum. -/
theorem sum_add_operand {v d : Word} {x : Nat} (hd : d.toNat = x) (y : Nat) :
    v + d + BitVec.ofNat 64 y = v + BitVec.ofNat 64 (x + y) := by
  have hd' : d = BitVec.ofNat 64 x := by rw [← hd, BitVec.ofNat_toNat, BitVec.setWidth_eq]
  rw [hd', add_ofNat_add]

/-- From the sequencer's choice for the tail: its half-words and its odd byte, then the folder. By the recursion of the
16-bit sum. -/
theorem finishes_of_seqTail {b : List Byte} {s : State} (h : Ahead b s) (hlt : b.length < 8)
    (huop : s.uop = seqTail s.rem s.sum) :
    Finishes (tailOperations b.length (foldCount (s.sum + BitVec.ofNat 64 (w16 b)).toNat))
      (requestsOfCall s.cur b.length) (s.sum + BitVec.ofNat 64 (w16 b)) s := by
  induction b using w16.induct generalizing s with
  | case1 =>
    have hrem : s.rem.toNat = 0 := h.length
    rw [seqTail_of_zero hrem] at huop
    rw [w16, add_ofNat_zero]
    exact finishes_of_seqFold huop hrem
  | case2 b =>
    have hrem : s.rem.toNat = 1 := h.length
    rw [seqTail_of_one hrem] at huop
    obtain ⟨d, hexec, hd⟩ := exec_odd1_of_collect h.bytes
    have hsum : (oddEffect d s).sum = s.sum + BitVec.ofNat 64 (w16 [b]) := by
      have := sum_add_operand (v := s.sum) hd 0
      rwa [add_ofNat_zero] at this
    have hzero : (oddEffect d s).rem.toNat = 0 := by rw [oddEffect_rem, remAfter_toNat hrem.ge, hrem]
    have hfold := finishes_of_seqFold (s := oddEffect d s) rfl hzero
    rw [hsum] at hfold
    have hreqs : requestsOfCall s.cur 1 = [requestOf .one s] :=
      congrArg (fun a => [(⟨.one, a⟩ : MemRequest)]) (add_ofNat_zero s.cur)
    rw [List.length_singleton, hreqs]
    exact hfold.cons_reading (congrArg decodeUop huop) (uop_ne_idle huop) (memRequest_of_odd1 huop) hexec
  | case3 b₀ b₁ rest ih =>
    have hlen : (b₀ :: b₁ :: rest).length = rest.length + 2 := rfl
    rw [hlen] at hlt
    have hrem : s.rem.toNat = rest.length + 2 := h.length
    rw [seqTail_of_le (by omega)] at huop
    have hahead : Ahead ([b₀, b₁] ++ rest) s := h
    obtain ⟨d, hexec, hd⟩ := exec_half2_of_collect hahead.front
    have hsum : (halfEffect d s).sum + BitVec.ofNat 64 (w16 rest) = s.sum + BitVec.ofNat 64 (w16 (b₀ :: b₁ :: rest)) :=
      sum_add_operand hd (w16 rest)
    have hrest := ih (hahead.rest (t := halfEffect d s) rfl rfl rfl) (by omega) rfl
    rw [hsum] at hrest
    rw [hlen, tailOperations_add_two, requestsOfCall_add_two s.cur hlt]
    exact hrest.cons_reading (congrArg decodeUop huop) (uop_ne_idle huop) (memRequest_of_half2 huop) hexec

/-- From the sequencer's choice for the lanes: one `LANE8` for each chunk, `COMBINE`, and the tail. -/
theorem finishes_of_seqLane {b : List Byte} {s : State} (h : Ahead b s) (huop : s.uop = seqLane s.rem) :
    Finishes (operationsOfCall b.length (foldCount (s.sum + s.sum1 + BitVec.ofNat 64 (laneTotal b)).toNat))
      (requestsOfCall s.cur b.length) (s.sum + s.sum1 + BitVec.ofNat 64 (laneTotal b)) s := by
  induction b using chunk_induction generalizing s with
  | short b hlt =>
    rw [seqLane_of_lt (h.length.trans_lt hlt)] at huop
    have htail := finishes_of_seqTail (s := goTo (seqTail s.rem (s.sum + s.sum1)) (addToSum s.sum1 s))
      ⟨h.length, h.bytes⟩ hlt rfl
    rw [laneTotal_of_short hlt, operationsOfCall_of_lt hlt]
    exact htail.cons_silent (congrArg decodeUop huop) (uop_ne_idle huop) (memRequest_of_combine huop) (exec_combine s)
  | chunk lo hi rest hlo hhi ih =>
    have hchunk : (lo ++ hi).length = 8 := chunk_length hlo hhi
    have hlen : (lo ++ hi ++ rest).length = rest.length + 8 := by rw [List.length_append, hchunk, Nat.add_comm]
    have hrem : s.rem.toNat = rest.length + 8 := h.length.trans hlen
    rw [seqLane_of_le (by omega)] at huop
    have hfront := h.front
    rw [hchunk] at hfront
    obtain ⟨d, hexec, hlow, hhigh⟩ := exec_lane8_of_collect hlo hhi hfront
    have hsum : (laneEffect d s).sum + (laneEffect d s).sum1 + BitVec.ofNat 64 (laneTotal rest)
        = s.sum + s.sum1 + BitVec.ofNat 64 (laneTotal (lo ++ hi ++ rest)) := by
      rw [laneTotal_chunk hlo hhi, Nat.add_assoc, ← sum_add_operand hlow, ← sum_add_operand hhigh, laneEffect_sum,
        laneEffect_sum1]
      ring
    have hrest := ih (h.rest (t := laneEffect d s) rfl (by rw [hchunk]; rfl) (by rw [hchunk]; rfl)) rfl
    rw [hsum] at hrest
    rw [hlen, operationsOfCall_add_eight, requestsOfCall_add_eight]
    exact hrest.cons_reading (congrArg decodeUop huop) (uop_ne_idle huop) (memRequest_of_lane8 huop) hexec

/-! ### A call from its START -/

/-- The state an accepted `START` leaves. -/
def started (data len : Word) (s : State) : State :=
  goTo (seqLane len) (beginCall data len s)

theorem step_startTurn {s : State} {data len : Word} {rest : List Turn} (hidle : s.uop = 0b000#3)
    (hturns : s.turns = startTurn data len :: rest) : step s = .next (setTurns rest (started data len s)) := by
  rw [step_of_hostNext hturns, hostTurn_command, runWord_startWord]
  exact exec_start_of_idle (s := setTurns rest s) hidle data len

/-- R70 to R72: with its region readable a call performs the operations of R60 with the requests of R36, and ends with
the complement of the fold of its total, which the accumulators hold modulo 2^64. -/
theorem finishes_started {s : State} {data len : Word} {b : List Byte}
    (hregion : Memory.region s.mem data len.toNat = some b) (rest : List Turn) :
    Finishes (operationsOfCall len.toNat (foldCount (laneTotal b % 2 ^ 64))) (requestsOfCall data len.toNat)
      (BitVec.ofNat 64 (laneTotal b)) (setTurns rest (started data len s)) := by
  have hbytes := region_eq_some.1 hregion
  have hlen : b.length = len.toNat := collect_length hbytes
  have hahead : Ahead b (setTurns rest (started data len s)) := ⟨hlen.symm, by rw [hlen]; exact hbytes⟩
  have hcall := finishes_of_seqLane hahead rfl
  have htotal : (setTurns rest (started data len s)).sum + (setTurns rest (started data len s)).sum1
      + BitVec.ofNat 64 (laneTotal b) = BitVec.ofNat 64 (laneTotal b) := by
    rw [show (setTurns rest (started data len s)).sum + (setTurns rest (started data len s)).sum1 = 0#64 from rfl,
      BitVec.zero_add]
  rw [htotal, BitVec.toNat_ofNat, hlen] at hcall
  exact hcall

/-- R70: the count of steps, with at most four folds. -/
theorem stepsOfCall_bounds {f : Nat} (n : Nat) (h : f ≤ 4) :
    n / 8 + 2 ≤ stepsOfCall n f ∧ stepsOfCall n f ≤ n / 8 + 10 := by
  unfold stepsOfCall
  omega

theorem total_mod_lt (x : Nat) : x % 2 ^ 64 < 2 ^ 64 :=
  Nat.mod_lt x (by decide)

/-- Settles O54: the call's operations are as many as `steps(len, f)`, and until the last it is in progress. -/
theorem callEndsInExactSteps : Obligations.CallEndsInExactSteps := by
  unfold Obligations.CallEndsInExactSteps
  intro s data len b hidle hturns hregion
  obtain ⟨t, hperf, hended, hresult, hrem⟩ := finishes_started hregion []
  have hsteps := operationsOfCall_length len.toNat (foldCount (laneTotal b % 2 ^ 64))
  have hfirst := step_startTurn hidle hturns
  have hfour := foldCount_le_four (total_mod_lt (laneTotal b))
  obtain ⟨hlower, hupper⟩ := stepsOfCall_bounds len.toNat hfour
  obtain ⟨hmem, -⟩ := hperf.keeps
  have hrun := hperf.run rfl
  rw [hsteps] at hrun
  rw [BitVec.toNat_ofNat] at hresult
  refine ⟨_, t, rfl, hfour, ?ends, hended, hresult, hrem, hmem, hlower, hupper, fun n u hn hpos hu => ?notBefore⟩
  case ends =>
    rw [Nat.add_comm]
    exact (run_succ hfirst _).trans hrun
  case notBefore =>
    obtain ⟨n, rfl⟩ := Nat.exists_eq_add_one_of_ne_zero hpos.ne'
    exact hperf.busy rfl (by rw [hsteps]; omega) ((run_succ hfirst n).symm.trans hu)

/-- Settles O56: the two calls take the same number of steps and end with the same complement. -/
theorem resultDependsOnBytesAlone : Obligations.ResultDependsOnBytesAlone := by
  unfold Obligations.ResultDependsOnBytesAlone
  intro s₁ s₂ data₁ data₂ len b hidle₁ hidle₂ hturns₁ hturns₂ hregion₁ hregion₂
  obtain ⟨_, t₁, rfl, -, hrun₁, hended₁, hresult₁, -⟩ := callEndsInExactSteps s₁ data₁ len b hidle₁ hturns₁ hregion₁
  obtain ⟨_, t₂, rfl, -, hrun₂, hended₂, hresult₂, -⟩ := callEndsInExactSteps s₂ data₂ len b hidle₂ hturns₂ hregion₂
  exact ⟨_, t₁, t₂, hrun₁, hrun₂, hended₁, hended₂, hresult₁.trans hresult₂.symm⟩

/-- The host's turn that begins the call is no operation of the sequencer and issues no request. -/
theorem inRun_startTurn {s t : State} {data len : Word} {rest : List Turn}
    (hturns : s.turns = startTurn data len :: rest) (h : step s = .next t) (n : Nat) :
    operationsInRun (n + 1) s = operationsInRun n t ∧ requestsInRun (n + 1) s = requestsInRun n t := by
  simp [operationsInRun, requestsInRun, hturns, startTurn, h]

/-- The operations and the requests of a whole call. -/
theorem call_inRun {s : State} {data len : Word} {b : List Byte} (hidle : s.uop = 0b000#3)
    (hturns : s.turns = [startTurn data len]) (hregion : Memory.region s.mem data len.toNat = some b) :
    operationsInRun (1 + stepsOfCall len.toNat (foldCount (laneTotal b % 2 ^ 64))) s =
        operationsOfCall len.toNat (foldCount (laneTotal b % 2 ^ 64)) ∧
      requestsInRun (1 + stepsOfCall len.toNat (foldCount (laneTotal b % 2 ^ 64))) s =
        requestsOfCall data len.toNat := by
  obtain ⟨t, hperf, -⟩ := finishes_started hregion []
  obtain ⟨hops, hreqs⟩ := inRun_startTurn hturns (step_startTurn hidle hturns)
    (stepsOfCall len.toNat (foldCount (laneTotal b % 2 ^ 64)))
  have hrun := hperf.inRun rfl
  rw [operationsOfCall_length] at hrun
  rw [Nat.add_comm, hops, hreqs]
  exact hrun

/-- Settles O58: the operations performed are those of R60. -/
theorem callTrace : Obligations.CallTrace := by
  unfold Obligations.CallTrace
  exact fun _ _ _ _ hidle hturns hregion => (call_inRun hidle hturns hregion).1

/-- Settles O57: the requests made are those of R36. -/
theorem callIssuesListedReads : Obligations.CallIssuesListedReads := by
  unfold Obligations.CallIssuesListedReads
  exact fun _ _ _ _ hidle hturns hregion => (call_inRun hidle hturns hregion).2

/-- Settles O55: the sequencer's turns are as many as the call's operations; up to R83's bound the total has not
wrapped, and it folds as the 16-bit sum does. -/
theorem callComputesDigest : Obligations.CallComputesDigest := by
  unfold Obligations.CallComputesDigest
  intro s data len d b during rest hidle hregion hdigest hbound hturns hhost hcount
  have hlen : b.length = len.toNat := collect_length (region_eq_some.1 hregion)
  have hfits : laneTotal b % 2 ^ 64 = laneTotal b := Nat.mod_eq_of_lt (laneTotal_lt (hlen ▸ hbound))
  have hd : digestOf b = d := by
    rw [digest, hregion] at hdigest
    exact Option.some.inj hdigest
  obtain ⟨t, hperf, hended, hresult, -⟩ := finishes_started hregion s.turns
  rw [BitVec.toNat_ofNat, hfits, fold_laneTotal] at hresult
  rw [← operationsOfCall_length, ← hfits] at hcount
  refine ⟨setTurns rest t, ?_, hended, hresult.trans hd, rfl⟩
  exact (run_succ (step_startTurn hidle hturns) _).trans (hperf.run_interleaved hhost hcount)

/-- Settles O53: the whole-call statements for the region of no bytes, whose total is 0 and needs no fold. -/
theorem emptyCall : Obligations.EmptyCall := by
  unfold Obligations.EmptyCall
  intro s data hidle hturns
  have hregion : Memory.region s.mem data (0#64).toNat = some [] := rfl
  have hfolds : foldCount (laneTotal [] % 2 ^ 64) = 0 := rfl
  obtain ⟨_, t, rfl, -, hrun, hended, hresult, -⟩ := callEndsInExactSteps s data 0#64 [] hidle hturns hregion
  obtain ⟨hops, hreqs⟩ := call_inRun hidle hturns hregion
  rw [hfolds] at hrun hops hreqs
  exact ⟨⟨t, hrun, hended, hresult⟩, hops, hreqs⟩

end Sys2Proof.Machine
end

section
/-! PROOFS. A call whose region has an unreadable byte (20_memory.md R41, 93_implementation_defined.md U1). -/

namespace Sys2Proof.Machine

/-! ### Where a call can be -/

/-- What a call has read was readable, so an unreadable byte of the region is still to come. -/
theorem ReadSoFar.le_of_unreadable {data len : Word} {b : List Byte} {s : State} (h : ReadSoFar data len b s) {k : Nat}
    (hnone : Memory.readAt s.mem (data + BitVec.ofNat 64 k) = none) : len.toNat - s.rem.toNat ≤ k := by
  by_contra hlt
  obtain ⟨c, hc⟩ := collect_error_of_unreadable ((mem_addresses data _ _).2 ⟨k, Nat.not_le.1 hlt, rfl⟩) hnone
  cases hc.symm.trans (region_eq_some.1 h.bytesRead)

theorem CallFacts.request_le_rem {data len : Word} {b : List Byte} {s : State} (facts : CallFacts data len b s)
    {r : MemRequest} (h : memRequest s = some r) : r.addr = s.cur ∧ r.size.bytes ≤ s.rem.toNat :=
  Machine.request_le_rem (fun h1 => (facts.lane h1).1) (fun h3 => (facts.half h3).1) facts.odd h

/-- R41: an operation that stops does so at the lowest unreadable byte of its request. -/
theorem exec_fault_request {s : State} {f : Fault} (h : exec (decodeUop s.uop) s = .fault f) :
    ∃ r c, memRequest s = some r ∧ f = .unreadableByte c ∧ LowestUnreadable s.mem s.cur r.size.bytes c := by
  obtain ⟨hop, c, rfl, -⟩ := exec_fault h
  rcases hop with hi | hi | hi
  · rw [hi] at h
    exact ⟨_, c, memRequest_of_lane8 (uop_of_decodeUop hi), rfl, withRead_fault_iff.1 h⟩
  · rw [hi] at h
    exact ⟨_, c, memRequest_of_half2 (uop_of_decodeUop hi), rfl, withRead_fault_iff.1 h⟩
  · rw [hi] at h
    exact ⟨_, c, memRequest_of_odd1 (uop_of_decodeUop hi), rfl, withRead_fault_iff.1 h⟩

/-- R41: a call that stops does so at a byte of its region. -/
theorem CallFacts.fault_in_region {data len : Word} {b : List Byte} {s : State} {f : Fault}
    (facts : CallFacts data len b s) (h : exec (decodeUop s.uop) s = .fault f) :
    ∃ j, j < len.toNat ∧ f = .unreadableByte (data + BitVec.ofNat 64 j) ∧
      Memory.readAt s.mem (data + BitVec.ofNat 64 j) = none := by
  obtain ⟨r, c, hreq, rfl, ⟨k, hk, rfl⟩, hnone, -⟩ := exec_fault_request h
  obtain ⟨-, hle⟩ := facts.request_le_rem hreq
  have hrem := facts.remaining
  rw [facts.readSoFar.cur_eq, add_ofNat_add] at hnone ⊢
  exact ⟨_, by omega, rfl, hnone⟩

/-! ### Progress -/

/-- How far a call is from having read everything: each reading operation lowers `rem`, and `COMBINE` comes once. -/
def readingLeft (s : State) : Nat :=
  2 * s.rem.toNat + if s.uop = 0b010#3 then 1 else 0

theorem readingLeft_of_combine {s : State} (h : s.uop = 0b010#3) : readingLeft s = 2 * s.rem.toNat + 1 := by
  rw [readingLeft, if_pos h]

theorem readingLeft_of_ne_combine {s : State} (h : s.uop ≠ 0b010#3) : readingLeft s = 2 * s.rem.toNat := by
  rw [readingLeft, if_neg h]
  rfl

theorem readingLeft_lt_of_remAfter {n : Nat} {s t : State} (hn : n ≤ s.rem.toNat) (hpos : 0 < n)
    (hrem : t.rem = remAfter n s) : readingLeft t < readingLeft s := by
  have hrem' : t.rem.toNat = s.rem.toNat - n := hrem ▸ remAfter_toNat hn
  unfold readingLeft
  split <;> split <;> omega

/-- While bytes remain, every operation of a call brings it on. -/
theorem SequencerMove.readingLeft_lt {data len : Word} {b : List Byte} {s t : State} (h : SequencerMove s t)
    (facts : CallFacts data len b s) (hsome : s.rem.toNat ≠ 0) : readingLeft t < readingLeft s := by
  cases h with
  | idle huop => exact absurd huop facts.busy
  | lane8 huop =>
    obtain ⟨hle, -⟩ := facts.lane huop
    exact readingLeft_lt_of_remAfter hle (by decide) rfl
  | combine huop =>
    rw [readingLeft_of_combine huop, readingLeft_of_ne_combine (seqTail_ne_combine _ _)]
    exact Nat.lt_succ_self _
  | half2 huop =>
    obtain ⟨hle, -⟩ := facts.half huop
    exact readingLeft_lt_of_remAfter hle (by decide) rfl
  | odd1 huop => exact readingLeft_lt_of_remAfter (facts.odd huop).ge (by decide) rfl
  | fold huop => exact absurd (facts.foldDone huop).1 hsome
  | cmpl huop => exact absurd (facts.complement huop).1 hsome

/-! ### The stop -/

theorem run_one_fault {s : State} {f : Fault} (h : step s = .fault f) : Host.Core.run core 1 s = .fault f := by
  have hstep : core.step s = .fault f := h
  simp only [Host.Core.run, hstep]

/-- R41: with an unreadable byte in its region a call comes to a stop at one, by induction on what is left to read. -/
theorem CallFacts.stops {data len : Word} {b : List Byte} {s : State} (facts : CallFacts data len b s)
    (hturns : s.turns = []) {k : Nat} (hk : k < len.toNat)
    (hnone : Memory.readAt s.mem (data + BitVec.ofNat 64 k) = none) :
    ∃ n j, j < len.toNat ∧ Host.Core.run core n s = .fault (.unreadableByte (data + BitVec.ofNat 64 j)) ∧
      Memory.readAt s.mem (data + BitVec.ofNat 64 j) = none := by
  induction hn : readingLeft s using Nat.strong_induction_on generalizing s b with
  | _ n ih =>
    subst hn
    have hexec := step_of_nil hturns
    have hsome : s.rem.toNat ≠ 0 := by
      have := facts.readSoFar.le_of_unreadable hnone
      omega
    cases hstep : step s with
    | next t =>
      have hmove : SequencerMove s t := sequencerMove_of_exec (hexec.symm.trans hstep)
      obtain ⟨hmem, hkept, -⟩ := exec_keeps (hexec.symm.trans hstep)
      rcases hmove.callFacts facts with ⟨more, facts'⟩ | ⟨huop, -⟩
      · obtain ⟨n, j, hj, hrun, hat⟩ :=
          ih _ (hmove.readingLeft_lt facts hsome) facts' (hkept.trans hturns) (hmem ▸ hnone) rfl
        exact ⟨n + 1, j, hj, (run_succ hstep n).trans hrun, hmem ▸ hat⟩
      · exact absurd (facts.complement huop).1 hsome
    | fault f =>
      obtain ⟨j, hj, rfl, hat⟩ := facts.fault_in_region (hexec.symm.trans hstep)
      exact ⟨1, j, hj, run_one_fault hstep, hat⟩
    | refused r =>
      obtain ⟨hi, -⟩ := exec_refused (hexec.symm.trans hstep)
      obtain ⟨-, hreserved, -⟩ := facts.inProgress
      exact absurd (uop_of_decodeUop hi) hreserved

/-- Settles O59: the accepted `START` establishes the facts of its call, and the call stops. -/
theorem unreadableRegionStopsCall : Obligations.UnreadableRegionStopsCall := by
  unfold Obligations.UnreadableRegionStopsCall
  intro s data len hidle hturns hregion
  obtain ⟨k, hk, hunread⟩ : ∃ k, k < len.toNat ∧ ¬ ∃ b, Memory.readAt s.mem (data + BitVec.ofNat 64 k) = some b := by
    simpa only [Readable, not_forall, exists_prop] using hregion
  have hnone : Memory.readAt s.mem (data + BitVec.ofNat 64 k) = none :=
    Option.eq_none_iff_forall_ne_some.2 fun b hb => hunread ⟨b, hb⟩
  obtain ⟨t, hstart, facts⟩ := startEstablishesCallFacts (setTurns [] s) data len hidle
  cases (exec_start_of_idle (s := setTurns [] s) hidle data len).symm.trans hstart
  obtain ⟨n, j, hj, hrun, hat⟩ := facts.stops rfl hk hnone
  exact ⟨n + 1, _, (run_succ (step_startTurn hidle hturns) n).trans hrun, hat, j, hj, rfl⟩

end Sys2Proof.Machine
end
